-- ==== Sys2Proof/Word.lean ====
section
/-! DEFINITION. The machine word of the grihezz/emulator CORE: "a 16-bit unit of storage/computation", an unsigned
integer 0..65535 (00_scope.md R8, R11; 20_memory.md R52). -/

namespace Sys2Proof

/-- A Word (R11): 16 bits, read as the unsigned integer `toNat`. There is no byte in this machine (R52). -/
abbrev Word := BitVec 16

/-- Source text, listings and disassembly (31_assembler.md, 30_encoding.md R99): a sequence of characters
(log entry 9). -/
abbrev Text := List Char

end Sys2Proof
end

