-- ==== Sys2Proof/Config.lean ====
section
/-! DEFINITION. The implementation parameters of 00_scope.md R8. The spec fixes every one of them (R9), and a step leaves no
value open (40_engine.md R188), so this file holds no opaque constant: the machine has no free value. -/

namespace Sys2Proof.Config

/-- `MEM_WORDS` of R8: addresses 0..4095 exist (20_memory.md R50). -/
abbrev memWords : Nat := 4096

/-- `NUM_GPR` of R8: R0..R15. -/
abbrev numGpr : Nat := 16

/-- The host's suggested `max_steps` (40_engine.md R186, D32). No rule uses it as a default: `run` always takes its bound. -/
def suggestedMaxSteps : Nat := 10000

end Sys2Proof.Config
end

