-- ==== Sys2Proof/Modes.lean ====
section
/-! DEFINITION. The codec's closed types: opcodes, addressing modes, the tagged operand, and what encode and decode answer. -/

namespace Sys2Proof

/-- The nine defined opcodes (30_encoding.md R81). -/
inductive Opcode where
  | halt
  | load
  | store
  | add
  | sub
  | cmp
  | jmp
  | jz
  | jnz
  deriving DecidableEq, Repr

/-- The five addressing modes (30_encoding.md R84). -/
inductive Mode where
  | direct
  | indirect
  | immediate
  | register
  | registerIndirect
  deriving DecidableEq, Repr

/-- The closed tagged variant of 00_scope.md R15. Each value has exactly the width its range of R84 has, so a value outside
its mode's range cannot be written (R86). -/
inductive Operand where
  | direct (addr : BitVec 8)
  | indirect (addr : BitVec 8)
  | immediate (value : BitVec 9)
  | register (idx : BitVec 4)
  | registerIndirect (idx : BitVec 4)
  deriving DecidableEq, Repr

/-- Why a word is no instruction (30_encoding.md R90). -/
inductive InvalidReason where
  | unknownOpcode
  | reservedOperand
  deriving DecidableEq, Repr

/-- Why the encoder produces no word (30_encoding.md R88, R89). -/
inductive EncodeError where
  | unknownOpcode
  | unknownMnemonic
  | valueOutOfRange
  deriving DecidableEq, Repr

end Sys2Proof
end

