-- ==== Sys2Proof/Syntax.lean ====
section
/-! DEFINITION. The instruction type: one constructor per row of spec/opcode_table.json, in the table's order. -/

namespace Sys2Proof

/-- One constructor for each (mnemonic, mode) row of spec/opcode_table.json. The operand has the width the row's encoding
gives it (30_encoding.md R84): 8-bit addresses, 9-bit literals, 4-bit register indices. A row the engine faults on
(STORE immediate, a jump in a mode other than direct; 40_engine.md R193) is an instruction all the same: it decodes. -/
inductive Instr where
  /-- HALT direct: words 0x0000-0x00FF (row HALT/direct, R236). -/
  | haltDirect (addr : BitVec 8)
  /-- HALT indirect: words 0x0100-0x01FF (row HALT/indirect, R236). -/
  | haltIndirect (addr : BitVec 8)
  /-- HALT immediate: words 0x0200-0x03FF (row HALT/immediate, R236). -/
  | haltImmediate (value : BitVec 9)
  /-- HALT register: words 0x0400-0x040F (row HALT/register, R236). -/
  | haltRegister (idx : BitVec 4)
  /-- HALT registerIndirect: words 0x0410-0x041F (row HALT/register_indirect, R236). -/
  | haltRegisterIndirect (idx : BitVec 4)
  /-- LOAD direct: words 0x1000-0x10FF (row LOAD/direct, R210). -/
  | loadDirect (addr : BitVec 8)
  /-- LOAD indirect: words 0x1100-0x11FF (row LOAD/indirect, R210). -/
  | loadIndirect (addr : BitVec 8)
  /-- LOAD immediate: words 0x1200-0x13FF (row LOAD/immediate, R210). -/
  | loadImmediate (value : BitVec 9)
  /-- LOAD register: words 0x1400-0x140F (row LOAD/register, R210). -/
  | loadRegister (idx : BitVec 4)
  /-- LOAD registerIndirect: words 0x1410-0x141F (row LOAD/register_indirect, R210). -/
  | loadRegisterIndirect (idx : BitVec 4)
  /-- STORE direct: words 0x2000-0x20FF (row STORE/direct, R211). -/
  | storeDirect (addr : BitVec 8)
  /-- STORE indirect: words 0x2100-0x21FF (row STORE/indirect, R211). -/
  | storeIndirect (addr : BitVec 8)
  /-- STORE immediate: words 0x2200-0x23FF (row STORE/immediate, R211). -/
  | storeImmediate (value : BitVec 9)
  /-- STORE register: words 0x2400-0x240F (row STORE/register, R211). -/
  | storeRegister (idx : BitVec 4)
  /-- STORE registerIndirect: words 0x2410-0x241F (row STORE/register_indirect, R211). -/
  | storeRegisterIndirect (idx : BitVec 4)
  /-- ADD direct: words 0x3000-0x30FF (row ADD/direct, R220). -/
  | addDirect (addr : BitVec 8)
  /-- ADD indirect: words 0x3100-0x31FF (row ADD/indirect, R220). -/
  | addIndirect (addr : BitVec 8)
  /-- ADD immediate: words 0x3200-0x33FF (row ADD/immediate, R220). -/
  | addImmediate (value : BitVec 9)
  /-- ADD register: words 0x3400-0x340F (row ADD/register, R220). -/
  | addRegister (idx : BitVec 4)
  /-- ADD registerIndirect: words 0x3410-0x341F (row ADD/register_indirect, R220). -/
  | addRegisterIndirect (idx : BitVec 4)
  /-- SUB direct: words 0x4000-0x40FF (row SUB/direct, R221). -/
  | subDirect (addr : BitVec 8)
  /-- SUB indirect: words 0x4100-0x41FF (row SUB/indirect, R221). -/
  | subIndirect (addr : BitVec 8)
  /-- SUB immediate: words 0x4200-0x43FF (row SUB/immediate, R221). -/
  | subImmediate (value : BitVec 9)
  /-- SUB register: words 0x4400-0x440F (row SUB/register, R221). -/
  | subRegister (idx : BitVec 4)
  /-- SUB registerIndirect: words 0x4410-0x441F (row SUB/register_indirect, R221). -/
  | subRegisterIndirect (idx : BitVec 4)
  /-- CMP direct: words 0x5000-0x50FF (row CMP/direct, R222). -/
  | cmpDirect (addr : BitVec 8)
  /-- CMP indirect: words 0x5100-0x51FF (row CMP/indirect, R222). -/
  | cmpIndirect (addr : BitVec 8)
  /-- CMP immediate: words 0x5200-0x53FF (row CMP/immediate, R222). -/
  | cmpImmediate (value : BitVec 9)
  /-- CMP register: words 0x5400-0x540F (row CMP/register, R222). -/
  | cmpRegister (idx : BitVec 4)
  /-- CMP registerIndirect: words 0x5410-0x541F (row CMP/register_indirect, R222). -/
  | cmpRegisterIndirect (idx : BitVec 4)
  /-- JMP direct: words 0x6000-0x60FF (row JMP/direct, R231). -/
  | jmpDirect (addr : BitVec 8)
  /-- JMP indirect: words 0x6100-0x61FF (row JMP/indirect, R231). -/
  | jmpIndirect (addr : BitVec 8)
  /-- JMP immediate: words 0x6200-0x63FF (row JMP/immediate, R231). -/
  | jmpImmediate (value : BitVec 9)
  /-- JMP register: words 0x6400-0x640F (row JMP/register, R231). -/
  | jmpRegister (idx : BitVec 4)
  /-- JMP registerIndirect: words 0x6410-0x641F (row JMP/register_indirect, R231). -/
  | jmpRegisterIndirect (idx : BitVec 4)
  /-- JZ direct: words 0x7000-0x70FF (row JZ/direct, R232). -/
  | jzDirect (addr : BitVec 8)
  /-- JZ indirect: words 0x7100-0x71FF (row JZ/indirect, R232). -/
  | jzIndirect (addr : BitVec 8)
  /-- JZ immediate: words 0x7200-0x73FF (row JZ/immediate, R232). -/
  | jzImmediate (value : BitVec 9)
  /-- JZ register: words 0x7400-0x740F (row JZ/register, R232). -/
  | jzRegister (idx : BitVec 4)
  /-- JZ registerIndirect: words 0x7410-0x741F (row JZ/register_indirect, R232). -/
  | jzRegisterIndirect (idx : BitVec 4)
  /-- JNZ direct: words 0x8000-0x80FF (row JNZ/direct, R233). -/
  | jnzDirect (addr : BitVec 8)
  /-- JNZ indirect: words 0x8100-0x81FF (row JNZ/indirect, R233). -/
  | jnzIndirect (addr : BitVec 8)
  /-- JNZ immediate: words 0x8200-0x83FF (row JNZ/immediate, R233). -/
  | jnzImmediate (value : BitVec 9)
  /-- JNZ register: words 0x8400-0x840F (row JNZ/register, R233). -/
  | jnzRegister (idx : BitVec 4)
  /-- JNZ registerIndirect: words 0x8410-0x841F (row JNZ/register_indirect, R233). -/
  | jnzRegisterIndirect (idx : BitVec 4)
  deriving DecidableEq, Repr

end Sys2Proof
end

