-- ==== Sys2Proof/Machine/Codec.lean ====
section
/-! DEFINITION. The tables of the one shared codec (30_encoding.md R102): opcode numbers, mnemonics, mode offsets and
ranges, classification, the mode-legality table, and the (opcode, operand) view of an instruction. -/

namespace Sys2Proof

/-- The opcode field's value (30_encoding.md R81). -/
def Opcode.code : Opcode → Nat
  | .halt => 0
  | .load => 1
  | .store => 2
  | .add => 3
  | .sub => 4
  | .cmp => 5
  | .jmp => 6
  | .jz => 7
  | .jnz => 8

/-- The opcode a field value names, none for 9..15 and above (R81, R82). -/
def Opcode.ofCode : Nat → Option Opcode
  | 0 => some .halt
  | 1 => some .load
  | 2 => some .store
  | 3 => some .add
  | 4 => some .sub
  | 5 => some .cmp
  | 6 => some .jmp
  | 7 => some .jz
  | 8 => some .jnz
  | _ => none

/-- The upper-case mnemonic (R81). -/
def Opcode.mnemonic : Opcode → Text
  | .halt => ['H', 'A', 'L', 'T']
  | .load => ['L', 'O', 'A', 'D']
  | .store => ['S', 'T', 'O', 'R', 'E']
  | .add => ['A', 'D', 'D']
  | .sub => ['S', 'U', 'B']
  | .cmp => ['C', 'M', 'P']
  | .jmp => ['J', 'M', 'P']
  | .jz => ['J', 'Z']
  | .jnz => ['J', 'N', 'Z']

/-- The nine opcodes in the order of their codes. -/
def Opcode.all : List Opcode :=
  [.halt, .load, .store, .add, .sub, .cmp, .jmp, .jz, .jnz]

/-- Upper-casing of a token (31_assembler.md R127; ASCII letters only, log entry 7). -/
def upperCase (t : Text) : Text :=
  t.map Char.toUpper

/-- The opcode a mnemonic names, in either letter case; none for any other spelling (R89, R127). -/
def Opcode.ofMnemonic (t : Text) : Option Opcode :=
  Opcode.all.find? (fun op => op.mnemonic == upperCase t)

/-- The first operand-field value of a mode's range (30_encoding.md R84, R87). -/
def Mode.offset : Mode → Nat
  | .direct => 0
  | .indirect => 256
  | .immediate => 512
  | .register => 1024
  | .registerIndirect => 1040

/-- How many values a mode's range holds (R87). -/
def Mode.rangeSize : Mode → Nat
  | .direct => 256
  | .indirect => 256
  | .immediate => 512
  | .register => 16
  | .registerIndirect => 16

/-- The mode tag of an operand. -/
def Operand.mode : Operand → Mode
  | .direct _ => .direct
  | .indirect _ => .indirect
  | .immediate _ => .immediate
  | .register _ => .register
  | .registerIndirect _ => .registerIndirect

/-- The value of an operand: the operand field minus the mode offset, unsigned (R86). -/
def Operand.value : Operand → Nat
  | .direct a => a.toNat
  | .indirect a => a.toNat
  | .immediate n => n.toNat
  | .register k => k.toNat
  | .registerIndirect k => k.toNat

/-- The operand of a mode and a value of that mode's range. -/
def Operand.ofValue (m : Mode) (v : Nat) : Operand :=
  match m with
  | .direct => .direct (BitVec.ofNat 8 v)
  | .indirect => .indirect (BitVec.ofNat 8 v)
  | .immediate => .immediate (BitVec.ofNat 9 v)
  | .register => .register (BitVec.ofNat 4 v)
  | .registerIndirect => .registerIndirect (BitVec.ofNat 4 v)

/-- Mode classification of an operand field, none for the reserved range 1056..4095 (30_encoding.md R85). -/
def classify (field : BitVec 12) : Option Operand :=
  let x := field.toNat
  if x ≤ 255 then some (Operand.ofValue .direct x)
  else if x ≤ 511 then some (Operand.ofValue .indirect (x - 256))
  else if x ≤ 1023 then some (Operand.ofValue .immediate (x - 512))
  else if x ≤ 1039 then some (Operand.ofValue .register (x - 1024))
  else if x ≤ 1055 then some (Operand.ofValue .registerIndirect (x - 1040))
  else none

/-- `legal(op, mode)`: the one table the engine and the assembler share (40_engine.md R193; 31_assembler.md R137, where
HALT takes no operand at all). -/
def legalMode (op : Opcode) (m : Mode) : Bool :=
  match op with
  | .halt | .load | .add | .sub | .cmp => true
  | .store => m != .immediate
  | .jmp | .jz | .jnz => m == .direct

/-- The instruction of an opcode and an operand: which of the table's 45 rows the pair is. -/
def Instr.of (op : Opcode) (o : Operand) : Instr :=
  match op, o with
  | .halt, .direct a => .haltDirect a
  | .halt, .indirect a => .haltIndirect a
  | .halt, .immediate n => .haltImmediate n
  | .halt, .register k => .haltRegister k
  | .halt, .registerIndirect k => .haltRegisterIndirect k
  | .load, .direct a => .loadDirect a
  | .load, .indirect a => .loadIndirect a
  | .load, .immediate n => .loadImmediate n
  | .load, .register k => .loadRegister k
  | .load, .registerIndirect k => .loadRegisterIndirect k
  | .store, .direct a => .storeDirect a
  | .store, .indirect a => .storeIndirect a
  | .store, .immediate n => .storeImmediate n
  | .store, .register k => .storeRegister k
  | .store, .registerIndirect k => .storeRegisterIndirect k
  | .add, .direct a => .addDirect a
  | .add, .indirect a => .addIndirect a
  | .add, .immediate n => .addImmediate n
  | .add, .register k => .addRegister k
  | .add, .registerIndirect k => .addRegisterIndirect k
  | .sub, .direct a => .subDirect a
  | .sub, .indirect a => .subIndirect a
  | .sub, .immediate n => .subImmediate n
  | .sub, .register k => .subRegister k
  | .sub, .registerIndirect k => .subRegisterIndirect k
  | .cmp, .direct a => .cmpDirect a
  | .cmp, .indirect a => .cmpIndirect a
  | .cmp, .immediate n => .cmpImmediate n
  | .cmp, .register k => .cmpRegister k
  | .cmp, .registerIndirect k => .cmpRegisterIndirect k
  | .jmp, .direct a => .jmpDirect a
  | .jmp, .indirect a => .jmpIndirect a
  | .jmp, .immediate n => .jmpImmediate n
  | .jmp, .register k => .jmpRegister k
  | .jmp, .registerIndirect k => .jmpRegisterIndirect k
  | .jz, .direct a => .jzDirect a
  | .jz, .indirect a => .jzIndirect a
  | .jz, .immediate n => .jzImmediate n
  | .jz, .register k => .jzRegister k
  | .jz, .registerIndirect k => .jzRegisterIndirect k
  | .jnz, .direct a => .jnzDirect a
  | .jnz, .indirect a => .jnzIndirect a
  | .jnz, .immediate n => .jnzImmediate n
  | .jnz, .register k => .jnzRegister k
  | .jnz, .registerIndirect k => .jnzRegisterIndirect k

/-- The opcode of an instruction. -/
def Instr.op : Instr → Opcode
  | .haltDirect _ => .halt
  | .haltIndirect _ => .halt
  | .haltImmediate _ => .halt
  | .haltRegister _ => .halt
  | .haltRegisterIndirect _ => .halt
  | .loadDirect _ => .load
  | .loadIndirect _ => .load
  | .loadImmediate _ => .load
  | .loadRegister _ => .load
  | .loadRegisterIndirect _ => .load
  | .storeDirect _ => .store
  | .storeIndirect _ => .store
  | .storeImmediate _ => .store
  | .storeRegister _ => .store
  | .storeRegisterIndirect _ => .store
  | .addDirect _ => .add
  | .addIndirect _ => .add
  | .addImmediate _ => .add
  | .addRegister _ => .add
  | .addRegisterIndirect _ => .add
  | .subDirect _ => .sub
  | .subIndirect _ => .sub
  | .subImmediate _ => .sub
  | .subRegister _ => .sub
  | .subRegisterIndirect _ => .sub
  | .cmpDirect _ => .cmp
  | .cmpIndirect _ => .cmp
  | .cmpImmediate _ => .cmp
  | .cmpRegister _ => .cmp
  | .cmpRegisterIndirect _ => .cmp
  | .jmpDirect _ => .jmp
  | .jmpIndirect _ => .jmp
  | .jmpImmediate _ => .jmp
  | .jmpRegister _ => .jmp
  | .jmpRegisterIndirect _ => .jmp
  | .jzDirect _ => .jz
  | .jzIndirect _ => .jz
  | .jzImmediate _ => .jz
  | .jzRegister _ => .jz
  | .jzRegisterIndirect _ => .jz
  | .jnzDirect _ => .jnz
  | .jnzIndirect _ => .jnz
  | .jnzImmediate _ => .jnz
  | .jnzRegister _ => .jnz
  | .jnzRegisterIndirect _ => .jnz

/-- The operand of an instruction. -/
def Instr.operand : Instr → Operand
  | .haltDirect a => .direct a
  | .haltIndirect a => .indirect a
  | .haltImmediate n => .immediate n
  | .haltRegister k => .register k
  | .haltRegisterIndirect k => .registerIndirect k
  | .loadDirect a => .direct a
  | .loadIndirect a => .indirect a
  | .loadImmediate n => .immediate n
  | .loadRegister k => .register k
  | .loadRegisterIndirect k => .registerIndirect k
  | .storeDirect a => .direct a
  | .storeIndirect a => .indirect a
  | .storeImmediate n => .immediate n
  | .storeRegister k => .register k
  | .storeRegisterIndirect k => .registerIndirect k
  | .addDirect a => .direct a
  | .addIndirect a => .indirect a
  | .addImmediate n => .immediate n
  | .addRegister k => .register k
  | .addRegisterIndirect k => .registerIndirect k
  | .subDirect a => .direct a
  | .subIndirect a => .indirect a
  | .subImmediate n => .immediate n
  | .subRegister k => .register k
  | .subRegisterIndirect k => .registerIndirect k
  | .cmpDirect a => .direct a
  | .cmpIndirect a => .indirect a
  | .cmpImmediate n => .immediate n
  | .cmpRegister k => .register k
  | .cmpRegisterIndirect k => .registerIndirect k
  | .jmpDirect a => .direct a
  | .jmpIndirect a => .indirect a
  | .jmpImmediate n => .immediate n
  | .jmpRegister k => .register k
  | .jmpRegisterIndirect k => .registerIndirect k
  | .jzDirect a => .direct a
  | .jzIndirect a => .indirect a
  | .jzImmediate n => .immediate n
  | .jzRegister k => .register k
  | .jzRegisterIndirect k => .registerIndirect k
  | .jnzDirect a => .direct a
  | .jnzIndirect a => .indirect a
  | .jnzImmediate n => .immediate n
  | .jnzRegister k => .register k
  | .jnzRegisterIndirect k => .registerIndirect k

end Sys2Proof
end

