-- ==== Sys2Proof/WellFormed.lean ====
section
/-! DEFINITION. Well-formedness: of a raw codec triple (30_encoding.md R88, R93), of an instruction for the engine and the
assembler (R193, R137), and canonicity (R95). An `Instr` carries its operand at the exact width of its range, so a value
out of range is only expressible as a raw triple. -/

namespace Sys2Proof

/-- A valid triple: opcode 0..8 and a value in its mode's range (30_encoding.md R88, R93). -/
def tripleWellFormed (op : Nat) (m : Mode) (v : Int) : Bool :=
  decide (op ≤ 8) && decide (0 ≤ v) && decide (v < m.rangeSize)

/-- The mode is legal for the opcode (40_engine.md R193). A `Valid` word may be illegal here: it decodes and encodes, and
the engine faults on it. -/
def Instr.wellFormed (i : Instr) : Bool :=
  legalMode i.op i.operand.mode

/-- The assembler can produce it (30_encoding.md R95): a legal mode, and for HALT the operand field 0. -/
def Instr.canonical (i : Instr) : Bool :=
  i.wellFormed && (i.op != .halt || i.operand == .direct 0)

end Sys2Proof
end

