-- ==== Sys2Proof/Decode.lean ====
section
/-! DEFINITION. The codec (30_encoding.md): decode, total on every Word, and after it encode. -/

namespace Sys2Proof

/-- What decode answers (R90): an instruction, or why the word is none. -/
inductive Verdict where
  | valid (i : Instr)
  | invalid (why : InvalidReason)
  deriving DecidableEq, Repr

/-- `word[15:12]` (00_scope.md R10). -/
def opcodeField (w : Word) : BitVec 4 :=
  w.extractLsb' 12 4

/-- `word[11:0]` (R10). -/
def operandField (w : Word) : BitVec 12 :=
  w.extractLsb' 0 12

/-- `decode(w)` of R90: the opcode is checked first, then the operand field is classified, in the same way for every
opcode (R91). -/
def decode (w : Word) : Verdict :=
  match Opcode.ofCode (opcodeField w).toNat with
  | none => .invalid .unknownOpcode
  | some op =>
    match classify (operandField w) with
    | none => .invalid .reservedOperand
    | some o => .valid (Instr.of op o)

/-- The formula of R88: `word = (opcode << 12) | (mode_offset + value) & 0xFFF`. -/
def packWord (op : Nat) (m : Mode) (v : Nat) : Word :=
  (BitVec.ofNat 16 op <<< 12) ||| (BitVec.ofNat 16 (m.offset + v) &&& 0x0FFF#16)

/-- `encode(op, mode, value)` of R88, on raw numbers: an error for an opcode not in 0..8, then for a value outside its
mode's range. Mode legality is not checked here. -/
def encodeTriple (op : Nat) (m : Mode) (v : Int) : Except EncodeError Word :=
  if ¬ op ≤ 8 then .error .unknownOpcode
  else if ¬ (0 ≤ v ∧ v < m.rangeSize) then .error .valueOutOfRange
  else .ok (packWord op m v.toNat)

/-- `encode_mnemonic(m, mode, value)` of R89. -/
def encodeMnemonic (mnemonic : Text) (m : Mode) (v : Int) : Except EncodeError Word :=
  match Opcode.ofMnemonic mnemonic with
  | none => .error .unknownMnemonic
  | some op => encodeTriple op.code m v

/-- The word of an instruction (R88): its triple is always valid, so there is always one. -/
def encode (i : Instr) : Word :=
  packWord i.op.code i.operand.mode i.operand.value

/-- The instruction the decoder reads from a table row's bits: the low `nbits` bits of `w`, every other bit of the 16-bit
word 0. A word of this machine has no byte order (20_memory.md R52). -/
def decodeTableWord (nbits w : Nat) : Option Instr :=
  match decode (BitVec.ofNat 16 (w % 2 ^ nbits)) with
  | .valid i => some i
  | .invalid _ => none

end Sys2Proof
end

