-- ==== Sys2Proof/Machine/State.lean ====
section
/-! DEFINITION. The state record of 10_state.md R20, as plain data; the fault record; what a step may refuse; reset. -/

namespace Sys2Proof.Machine

/-- The four flags (10_state.md R27, R28). -/
structure Flags where
  zf : Bool
  sf : Bool
  cf : Bool
  of : Bool
  deriving DecidableEq, Repr

/-- The fault kinds of 60_exceptions.md R241. -/
inductive FaultKind where
  /-- A step starts with PC > 4095 (40_engine.md R182). -/
  | pcOutOfBounds
  /-- The fetched word has opcode 9..15 (R185). -/
  | illegalOpcode
  /-- The fetched word has a defined opcode and an operand field 1056..4095 (R185). -/
  | reservedOperand
  /-- STORE in immediate mode, or a jump in a mode other than direct (R193). -/
  | illegalAddressingMode
  /-- An indirect pointer or a register-indirect address above 4095 (20_memory.md R53, R54). -/
  | memoryOutOfBounds
  deriving DecidableEq, Repr

/-- The fault latch's record (10_state.md R32): the kind and, for MemoryOutOfBounds only, the effective address. -/
structure FaultRecord where
  kind : FaultKind
  ea : Option Word
  deriving DecidableEq, Repr

/-- The memory (20_memory.md R50): (address, word) pairs, addresses strictly rising and below 4096, no word 0 listed, since
an address not listed reads as 0 (memory is "zero-initialized"). The unit is the Word, not a byte (R52; log entry 1). The
operations are in Ops.lean. -/
abbrev Memory := List (Nat × Word)

/-- The complete state of one processor instance (10_state.md R20). -/
structure State where
  /-- ACC, R22. -/
  acc : Word
  /-- PC, the index of the next word to fetch, R23. -/
  pc : Word
  /-- IR, the word fetched last, R25. -/
  ir : Word
  /-- R0..R15, R26. -/
  regs : Vector Word 16
  /-- ZF, SF, CF, OF, R27. -/
  flags : Flags
  /-- R30. -/
  halted : Bool
  /-- The count of successful steps, unbounded, R31. -/
  stepCount : Nat
  /-- The fault latch, R32. -/
  fault : Option FaultRecord
  /-- mem[0..4095], R50. -/
  mem : Memory
  deriving DecidableEq, Repr

/-- Reasons for which the model stops with a fault of the host's kind: none. Every fault of 60_exceptions.md R241 has an
entry that R242 describes (halted and the latch set, all else as before), so it is a NEXT state, reached through
`State.raise` (log entry 2). Safe: nothing stops here. -/
inductive Fault where
  deriving DecidableEq, Repr

/-- Reasons for which a step is refused. -/
inductive Refusal where
  /-- Raised by an arm of `exec` whose instruction has no meaning yet; no arm of this model does. Safe. -/
  | notModelled (mnemonic : String)
  /-- Raised by `step` on a halted machine: the spec's `Fail`, "refused with no state change" (00_scope.md R14, 40_engine.md
  R181; log entry 3). Safe: the state is the one before the step. -/
  | halted
  deriving DecidableEq, Repr

/-- The machine after construction (70_reset_and_hazards.md R270): every field the spec's own value, memory all 0. -/
def State.reset : State where
  acc := 0
  pc := 0
  ir := 0
  regs := Vector.replicate 16 0
  flags := { zf := false, sf := false, cf := false, of := false }
  halted := false
  stepCount := 0
  fault := none
  mem := []

end Sys2Proof.Machine
end

