-- ==== Sys2Proof/Machine/Ops.lean ====
section
/-! DEFINITION. The named operations over memory and registers, taking a fault, and ending a step. -/

namespace Sys2Proof.Machine

/-! ### Memory (20_memory.md) -/

/-- One word of memory; an address not listed reads as 0 (R50). -/
def Memory.read : Memory → Nat → Word
  | [], _ => 0#16
  | (b, v) :: rest, a => if b = a then v else Memory.read rest a

/-- The memory without the entry of an address: the address then reads as 0. -/
def Memory.erase : Memory → Nat → Memory
  | [], _ => []
  | (b, w) :: rest, a => if b = a then Memory.erase rest a else (b, w) :: Memory.erase rest a

/-- Put an entry before the first one with a greater address. -/
def Memory.insert : Memory → Nat → Word → Memory
  | [], a, v => [(a, v)]
  | (b, w) :: rest, a, v => if a < b then (a, v) :: (b, w) :: rest else (b, w) :: Memory.insert rest a v

/-- Write one word (R54) and keep the canonical form: 0 is what an unlisted address reads as, so writing it removes the
entry. -/
def Memory.write (m : Memory) (a : Nat) (v : Word) : Memory :=
  if v = 0#16 then m.erase a else (m.erase a).insert a v

/-- Every listed address is at least `lo`, the addresses rise strictly, each exists, and no listed word is 0. -/
def Memory.wfFrom : Nat → Memory → Bool
  | _, [] => true
  | lo, (a, v) :: rest => decide (lo ≤ a) && decide (a < Config.memWords) && decide (v ≠ 0#16) && Memory.wfFrom (a + 1) rest

/-- The canonical form of the memory. -/
def Memory.wf (m : Memory) : Bool :=
  Memory.wfFrom 0 m

/-- The address names a word of memory: 0 <= a <= 4095 (00_scope.md R11). -/
def inBounds (a : Word) : Bool :=
  decide (a.toNat < Config.memWords)

/-- The record of a fault that carries no address (60_exceptions.md R241). -/
def FaultRecord.plain (k : FaultKind) : FaultRecord :=
  { kind := k, ea := none }

/-- The record of an out-of-bounds access at `a` (R241). -/
def FaultRecord.outOfBounds (a : Word) : FaultRecord :=
  { kind := .memoryOutOfBounds, ea := some a }

/-- `MemRead(a, 1)` of R53. -/
def memRead (a : Word) (s : State) : Except FaultRecord Word :=
  if inBounds a then .ok (s.mem.read a.toNat) else .error (.outOfBounds a)

/-- `MemWrite(a, 1, v)` of R54; on a fault memory is unchanged. -/
def memWrite (a v : Word) (s : State) : Except FaultRecord State :=
  if inBounds a then .ok { s with mem := s.mem.write a.toNat v } else .error (.outOfBounds a)

/-! ### Registers (10_state.md) -/

/-- R[k], no register hardwired (R26). -/
def State.getReg (s : State) (k : BitVec 4) : Word :=
  s.regs[k.toNat]'(k.isLt)

/-- R[k] <- v (R26). -/
def State.setReg (s : State) (k : BitVec 4) (v : Word) : State :=
  { s with regs := s.regs.set k.toNat v (k.isLt) }

/-- ACC <- v (R22). -/
def State.setAcc (s : State) (v : Word) : State :=
  { s with acc := v }

/-- All four flags at once (R27). -/
def State.setFlags (s : State) (f : Flags) : State :=
  { s with flags := f }

/-- IR <- w (R25; 40_engine.md R184). -/
def State.loadIR (s : State) (w : Word) : State :=
  { s with ir := w }

/-! ### Ending a step (40_engine.md) -/

/-- PC + 1, as `trunc16(PC + 1)` (10_state.md R24); from 4095 it is 4096, with no wrap to 0 (D31). -/
def State.nextPc (s : State) : Word :=
  s.pc + 1

/-- The end of a step that executed: the next PC and one more counted step (R183, R184). -/
def State.retire (s : State) (next : Word) : State :=
  { s with pc := next, stepCount := s.stepCount + 1 }

/-- Taking a fault (60_exceptions.md R242): the machine halts and the latch records it. It is applied to the state before
the instruction's writes, so ACC, the registers, the flags, memory, PC and step_count are as they were. -/
def State.raise (s : State) (r : FaultRecord) : State :=
  { s with halted := true, fault := some r }

/-- What every instruction does inside a step (R184): the legality check first (R193), then the effect; a fault raised by
either discards every write and is taken from the state before (R242). -/
def perform (op : Opcode) (o : Operand) (s : State) (effect : Except FaultRecord State) :
    Host.Outcome State Fault Refusal :=
  if legalMode op o.mode then
    match effect with
    | .ok t => .next t
    | .error r => .next (s.raise r)
  else .next (s.raise (.plain .illegalAddressingMode))

/-! ### Fetch (40_engine.md R182, R184, R185) -/

/-- PC > 4095: the step does not fetch (R182). -/
def State.pcOutOfBounds (s : State) : Bool :=
  !inBounds s.pc

/-- The word at PC, from the same memory data is stored to (20_memory.md R66). -/
def State.fetch (s : State) : Word :=
  s.mem.read s.pc.toNat

/-- The fault of a word that decodes to no instruction (R185). -/
def undecodable : InvalidReason → FaultRecord
  | .unknownOpcode => .plain .illegalOpcode
  | .reservedOperand => .plain .reservedOperand

/-- The code the spec gives each fault kind for a model's enumeration (60_exceptions.md R241). -/
def FaultKind.code : FaultKind → Nat
  | .pcOutOfBounds => 1
  | .illegalOpcode => 2
  | .reservedOperand => 3
  | .illegalAddressingMode => 4
  | .memoryOutOfBounds => 5

/-- Put a table word where the next step fetches it: at PC. Where the state would not fetch at all (halted, or PC > 4095),
the two fields the fetch needs are set as a reset sets them (log entry 4). -/
def placeFetchWord (s : State) (w : Word) : State :=
  let a : Word := if inBounds s.pc then s.pc else 0
  { s with pc := a, halted := false, mem := s.mem.write a.toNat w }

end Sys2Proof.Machine
end

