-- ==== Sys2Proof/Machine/Flags.lean ====
section
/-! DEFINITION. Truncation and the flag function (00_scope.md R11, R12; 40_engine.md R189, R190). -/

namespace Sys2Proof.Machine

/-- `trunc16(v) = v mod 65536`, also for negative `v` (R11). -/
def trunc16 (r : Int) : Word :=
  BitVec.ofInt 16 r

/-- Bit 15 of r's two's-complement representation (R12). -/
def bit15 (r : Int) : Bool :=
  (trunc16 r).msb

/-- `F(r)` of R190 on the unmasked result r: ZF from the masked result (90_conflicts.md C1), CF and OF by the ranges r falls
outside, OF literally so and not as two's-complement overflow (93_implementation_defined.md I13). -/
def flagsOf (r : Int) : Flags where
  zf := decide (trunc16 r = 0)
  sf := bit15 r
  cf := decide (r < 0 ∨ r > 65535)
  of := decide (r < -32768 ∨ r > 32767)

end Sys2Proof.Machine
end

