-- ==== Sys2Proof/Machine/Operands.lean ====
section
/-! DEFINITION. Operand resolution in the engine (40_engine.md R191, R192) and jump targets (43_control.md R230). -/

namespace Sys2Proof.Machine

/-- What an operand names once its pointer, if it has one, is read: a word of memory, a register, or a literal. -/
inductive Place where
  | memory (ea : Word)
  | register (idx : BitVec 4)
  | literal (v : Word)
  deriving DecidableEq, Repr

/-- The place an operand names (R191, R192). An indirect operand reads its pointer at the 8-bit address first
(20_memory.md R59); that read is always in bounds (60_exceptions.md R243). -/
def locate (o : Operand) (s : State) : Except FaultRecord Place :=
  match o with
  | .direct a => .ok (.memory (a.setWidth 16))
  | .indirect a => do
    let p ← memRead (a.setWidth 16) s
    return .memory p
  | .immediate n => .ok (.literal (n.setWidth 16))
  | .register k => .ok (.register k)
  | .registerIndirect k => .ok (.memory (s.getReg k))

/-- Read a place. -/
def readPlace (p : Place) (s : State) : Except FaultRecord Word :=
  match p with
  | .memory a => memRead a s
  | .register k => .ok (s.getReg k)
  | .literal v => .ok v

/-- Write a place. A literal is no destination: the legality check of R193 refuses it before this is reached (R192). -/
def writePlace (p : Place) (x : Word) (s : State) : Except FaultRecord State :=
  match p with
  | .memory a => memWrite a x s
  | .register k => .ok (s.setReg k x)
  | .literal _ => .error (.plain .illegalAddressingMode)

/-- `value_at(mode, v)` of R191. -/
def valueAt (o : Operand) (s : State) : Except FaultRecord Word := do
  let p ← locate o s
  readPlace p s

/-- `store_to(mode, v, x)` of R192. -/
def storeTo (o : Operand) (x : Word) (s : State) : Except FaultRecord State := do
  let p ← locate o s
  writePlace p x s

/-- A jump's target: the direct-mode value, an absolute word address 0..255 (43_control.md R230). Any other mode was refused
by the legality check of R193 before this is reached. -/
def jumpTarget (o : Operand) : Except FaultRecord Word :=
  match o with
  | .direct a => .ok (a.setWidth 16)
  | _ => .error (.plain .illegalAddressingMode)

end Sys2Proof.Machine
end

