-- ==== Sys2Proof/Machine/Arithmetic.lean ====
section
/-! DEFINITION. Arithmetic and compare: ADD, SUB and CMP (42_arithmetic.md R220 to R222). The result is the exact integer
of 40_engine.md R189; ACC gets it truncated, the flags see it unmasked. -/

namespace Sys2Proof.Machine

/-- `execute(ADD, mode, value)` of R220: r = ACC + v, flags from r, ACC the truncated r, PC + 1. -/
def addEffect (o : Operand) (s : State) : Except FaultRecord State := do
  let v ← valueAt o s
  let r : Int := (s.acc.toNat : Int) + v.toNat
  return ((s.setAcc (trunc16 r)).setFlags (flagsOf r)).retire s.nextPc

/-- ADD inside a step: the legality check of R193, the effect, and the fault entry where one is raised. -/
def addWith (o : Operand) (s : State) : Host.Outcome State Fault Refusal :=
  perform .add o s (addEffect o s)

/-- `execute(SUB, mode, value)` of R221: r = ACC - v, flags from r, ACC the truncated r, PC + 1. -/
def subEffect (o : Operand) (s : State) : Except FaultRecord State := do
  let v ← valueAt o s
  let r : Int := (s.acc.toNat : Int) - v.toNat
  return ((s.setAcc (trunc16 r)).setFlags (flagsOf r)).retire s.nextPc

/-- SUB inside a step. -/
def subWith (o : Operand) (s : State) : Host.Outcome State Fault Refusal :=
  perform .sub o s (subEffect o s)

/-- `execute(CMP, mode, value)` of R222: the flags of ACC - v; ACC is not written; PC + 1. -/
def cmpEffect (o : Operand) (s : State) : Except FaultRecord State := do
  let v ← valueAt o s
  let r : Int := (s.acc.toNat : Int) - v.toNat
  return (s.setFlags (flagsOf r)).retire s.nextPc

/-- CMP inside a step. -/
def cmpWith (o : Operand) (s : State) : Host.Outcome State Fault Refusal :=
  perform .cmp o s (cmpEffect o s)

/-- `ADD a` (R220). -/
def execAddDirect (a : BitVec 8) (s : State) : Host.Outcome State Fault Refusal :=
  addWith (.direct a) s

/-- `ADD (a)` (R220). -/
def execAddIndirect (a : BitVec 8) (s : State) : Host.Outcome State Fault Refusal :=
  addWith (.indirect a) s

/-- `ADD #n` (R220). -/
def execAddImmediate (n : BitVec 9) (s : State) : Host.Outcome State Fault Refusal :=
  addWith (.immediate n) s

/-- `ADD Rk` (R220). -/
def execAddRegister (k : BitVec 4) (s : State) : Host.Outcome State Fault Refusal :=
  addWith (.register k) s

/-- `ADD (Rk)` (R220). -/
def execAddRegisterIndirect (k : BitVec 4) (s : State) : Host.Outcome State Fault Refusal :=
  addWith (.registerIndirect k) s

/-- `SUB a` (R221). -/
def execSubDirect (a : BitVec 8) (s : State) : Host.Outcome State Fault Refusal :=
  subWith (.direct a) s

/-- `SUB (a)` (R221). -/
def execSubIndirect (a : BitVec 8) (s : State) : Host.Outcome State Fault Refusal :=
  subWith (.indirect a) s

/-- `SUB #n` (R221). -/
def execSubImmediate (n : BitVec 9) (s : State) : Host.Outcome State Fault Refusal :=
  subWith (.immediate n) s

/-- `SUB Rk` (R221). -/
def execSubRegister (k : BitVec 4) (s : State) : Host.Outcome State Fault Refusal :=
  subWith (.register k) s

/-- `SUB (Rk)` (R221). -/
def execSubRegisterIndirect (k : BitVec 4) (s : State) : Host.Outcome State Fault Refusal :=
  subWith (.registerIndirect k) s

/-- `CMP a` (R222). -/
def execCmpDirect (a : BitVec 8) (s : State) : Host.Outcome State Fault Refusal :=
  cmpWith (.direct a) s

/-- `CMP (a)` (R222). -/
def execCmpIndirect (a : BitVec 8) (s : State) : Host.Outcome State Fault Refusal :=
  cmpWith (.indirect a) s

/-- `CMP #n` (R222). -/
def execCmpImmediate (n : BitVec 9) (s : State) : Host.Outcome State Fault Refusal :=
  cmpWith (.immediate n) s

/-- `CMP Rk` (R222). -/
def execCmpRegister (k : BitVec 4) (s : State) : Host.Outcome State Fault Refusal :=
  cmpWith (.register k) s

/-- `CMP (Rk)` (R222). -/
def execCmpRegisterIndirect (k : BitVec 4) (s : State) : Host.Outcome State Fault Refusal :=
  cmpWith (.registerIndirect k) s

end Sys2Proof.Machine
end

