-- ==== Sys2Proof/Machine/Control.lean ====
section
/-! DEFINITION. Control transfer and HALT: JMP, JZ, JNZ, HALT (43_control.md R230 to R236). -/

namespace Sys2Proof.Machine

/-- `execute(HALT, mode, value)` of R236: the machine halts and PC stays; the step still counts (D30). -/
def haltEffect (s : State) : Except FaultRecord State :=
  .ok ({ s with halted := true }.retire s.pc)

/-- HALT inside a step; its operand only passes the legality check, which accepts every mode (D9). -/
def haltWith (o : Operand) (s : State) : Host.Outcome State Fault Refusal :=
  perform .halt o s (haltEffect s)

/-- `execute(JMP, Direct, a)` of R231: PC becomes the target. -/
def jmpEffect (o : Operand) (s : State) : Except FaultRecord State := do
  let a ← jumpTarget o
  return s.retire a

/-- JMP inside a step: the legality check of R193, the effect, and the fault entry where one is raised. -/
def jmpWith (o : Operand) (s : State) : Host.Outcome State Fault Refusal :=
  perform .jmp o s (jmpEffect o s)

/-- `execute(JZ, Direct, a)` of R232: the target if ZF, else PC + 1. -/
def jzEffect (o : Operand) (s : State) : Except FaultRecord State := do
  let a ← jumpTarget o
  return s.retire (if s.flags.zf then a else s.nextPc)

/-- JZ inside a step. -/
def jzWith (o : Operand) (s : State) : Host.Outcome State Fault Refusal :=
  perform .jz o s (jzEffect o s)

/-- `execute(JNZ, Direct, a)` of R233: the target if not ZF, else PC + 1. -/
def jnzEffect (o : Operand) (s : State) : Except FaultRecord State := do
  let a ← jumpTarget o
  return s.retire (if s.flags.zf then s.nextPc else a)

/-- JNZ inside a step. -/
def jnzWith (o : Operand) (s : State) : Host.Outcome State Fault Refusal :=
  perform .jnz o s (jnzEffect o s)

/-- HALT with a direct operand field, which it ignores (R236, D9). -/
def execHaltDirect (a : BitVec 8) (s : State) : Host.Outcome State Fault Refusal :=
  haltWith (.direct a) s

/-- HALT with an indirect operand field, which it ignores (R236, D9). -/
def execHaltIndirect (a : BitVec 8) (s : State) : Host.Outcome State Fault Refusal :=
  haltWith (.indirect a) s

/-- HALT with an immediate operand field, which it ignores (R236, D9). -/
def execHaltImmediate (n : BitVec 9) (s : State) : Host.Outcome State Fault Refusal :=
  haltWith (.immediate n) s

/-- HALT with a register operand field, which it ignores (R236, D9). -/
def execHaltRegister (k : BitVec 4) (s : State) : Host.Outcome State Fault Refusal :=
  haltWith (.register k) s

/-- HALT with a register-indirect operand field, which it ignores (R236, D9). -/
def execHaltRegisterIndirect (k : BitVec 4) (s : State) : Host.Outcome State Fault Refusal :=
  haltWith (.registerIndirect k) s

/-- `JMP a` (R231). -/
def execJmpDirect (a : BitVec 8) (s : State) : Host.Outcome State Fault Refusal :=
  jmpWith (.direct a) s

/-- `JMP (a)` (R231): R193 gives it the IllegalAddressingMode fault, whatever the state. -/
def execJmpIndirect (a : BitVec 8) (s : State) : Host.Outcome State Fault Refusal :=
  jmpWith (.indirect a) s

/-- `JMP #n` (R231): R193 gives it the IllegalAddressingMode fault, whatever the state. -/
def execJmpImmediate (n : BitVec 9) (s : State) : Host.Outcome State Fault Refusal :=
  jmpWith (.immediate n) s

/-- `JMP Rk` (R231): R193 gives it the IllegalAddressingMode fault, whatever the state. -/
def execJmpRegister (k : BitVec 4) (s : State) : Host.Outcome State Fault Refusal :=
  jmpWith (.register k) s

/-- `JMP (Rk)` (R231): R193 gives it the IllegalAddressingMode fault, whatever the state. -/
def execJmpRegisterIndirect (k : BitVec 4) (s : State) : Host.Outcome State Fault Refusal :=
  jmpWith (.registerIndirect k) s

/-- `JZ a` (R232). -/
def execJzDirect (a : BitVec 8) (s : State) : Host.Outcome State Fault Refusal :=
  jzWith (.direct a) s

/-- `JZ (a)` (R232): R193 gives it the IllegalAddressingMode fault, whatever the state. -/
def execJzIndirect (a : BitVec 8) (s : State) : Host.Outcome State Fault Refusal :=
  jzWith (.indirect a) s

/-- `JZ #n` (R232): R193 gives it the IllegalAddressingMode fault, whatever the state. -/
def execJzImmediate (n : BitVec 9) (s : State) : Host.Outcome State Fault Refusal :=
  jzWith (.immediate n) s

/-- `JZ Rk` (R232): R193 gives it the IllegalAddressingMode fault, whatever the state. -/
def execJzRegister (k : BitVec 4) (s : State) : Host.Outcome State Fault Refusal :=
  jzWith (.register k) s

/-- `JZ (Rk)` (R232): R193 gives it the IllegalAddressingMode fault, whatever the state. -/
def execJzRegisterIndirect (k : BitVec 4) (s : State) : Host.Outcome State Fault Refusal :=
  jzWith (.registerIndirect k) s

/-- `JNZ a` (R233). -/
def execJnzDirect (a : BitVec 8) (s : State) : Host.Outcome State Fault Refusal :=
  jnzWith (.direct a) s

/-- `JNZ (a)` (R233): R193 gives it the IllegalAddressingMode fault, whatever the state. -/
def execJnzIndirect (a : BitVec 8) (s : State) : Host.Outcome State Fault Refusal :=
  jnzWith (.indirect a) s

/-- `JNZ #n` (R233): R193 gives it the IllegalAddressingMode fault, whatever the state. -/
def execJnzImmediate (n : BitVec 9) (s : State) : Host.Outcome State Fault Refusal :=
  jnzWith (.immediate n) s

/-- `JNZ Rk` (R233): R193 gives it the IllegalAddressingMode fault, whatever the state. -/
def execJnzRegister (k : BitVec 4) (s : State) : Host.Outcome State Fault Refusal :=
  jnzWith (.register k) s

/-- `JNZ (Rk)` (R233): R193 gives it the IllegalAddressingMode fault, whatever the state. -/
def execJnzRegisterIndirect (k : BitVec 4) (s : State) : Host.Outcome State Fault Refusal :=
  jnzWith (.registerIndirect k) s

end Sys2Proof.Machine
end

