-- ==== Sys2Proof/Machine/Transfer.lean ====
section
/-! DEFINITION. Data transfer: LOAD and STORE (41_data_transfer.md R210, R211). -/

namespace Sys2Proof.Machine

/-- `execute(LOAD, mode, value)` of R210: the operand's value into ACC, all four flags from that value (D11), PC + 1. -/
def loadEffect (o : Operand) (s : State) : Except FaultRecord State := do
  let v ← valueAt o s
  return ((s.setAcc v).setFlags (flagsOf v.toNat)).retire s.nextPc

/-- LOAD inside a step: the legality check of R193, the effect, and the fault entry where one is raised. -/
def loadWith (o : Operand) (s : State) : Host.Outcome State Fault Refusal :=
  perform .load o s (loadEffect o s)

/-- `execute(STORE, mode, value)` of R211: ACC to the operand's place, no flag touched, PC + 1. -/
def storeEffect (o : Operand) (s : State) : Except FaultRecord State := do
  let t ← storeTo o s.acc s
  return t.retire s.nextPc

/-- STORE inside a step. -/
def storeWith (o : Operand) (s : State) : Host.Outcome State Fault Refusal :=
  perform .store o s (storeEffect o s)

/-- `LOAD a` (R210). -/
def execLoadDirect (a : BitVec 8) (s : State) : Host.Outcome State Fault Refusal :=
  loadWith (.direct a) s

/-- `LOAD (a)` (R210). -/
def execLoadIndirect (a : BitVec 8) (s : State) : Host.Outcome State Fault Refusal :=
  loadWith (.indirect a) s

/-- `LOAD #n` (R210). -/
def execLoadImmediate (n : BitVec 9) (s : State) : Host.Outcome State Fault Refusal :=
  loadWith (.immediate n) s

/-- `LOAD Rk` (R210). -/
def execLoadRegister (k : BitVec 4) (s : State) : Host.Outcome State Fault Refusal :=
  loadWith (.register k) s

/-- `LOAD (Rk)` (R210). -/
def execLoadRegisterIndirect (k : BitVec 4) (s : State) : Host.Outcome State Fault Refusal :=
  loadWith (.registerIndirect k) s

/-- `STORE a` (R211). -/
def execStoreDirect (a : BitVec 8) (s : State) : Host.Outcome State Fault Refusal :=
  storeWith (.direct a) s

/-- `STORE (a)` (R211). -/
def execStoreIndirect (a : BitVec 8) (s : State) : Host.Outcome State Fault Refusal :=
  storeWith (.indirect a) s

/-- `STORE #n` (R211): R193 gives it the IllegalAddressingMode fault, whatever the state. -/
def execStoreImmediate (n : BitVec 9) (s : State) : Host.Outcome State Fault Refusal :=
  storeWith (.immediate n) s

/-- `STORE Rk` (R211). -/
def execStoreRegister (k : BitVec 4) (s : State) : Host.Outcome State Fault Refusal :=
  storeWith (.register k) s

/-- `STORE (Rk)` (R211). -/
def execStoreRegisterIndirect (k : BitVec 4) (s : State) : Host.Outcome State Fault Refusal :=
  storeWith (.registerIndirect k) s

end Sys2Proof.Machine
end

