-- ==== Sys2Proof/Machine/Dispatch.lean ====
section
/-! DEFINITION. Dispatch: one arm per constructor of Instr, each one direct call of that row's meaning. -/

namespace Sys2Proof.Machine

def exec (i : Instr) (s : State) : Host.Outcome State Fault Refusal :=
  match i with
  | .haltDirect a => Sys2Proof.Machine.execHaltDirect a s
  | .haltIndirect a => Sys2Proof.Machine.execHaltIndirect a s
  | .haltImmediate n => Sys2Proof.Machine.execHaltImmediate n s
  | .haltRegister k => Sys2Proof.Machine.execHaltRegister k s
  | .haltRegisterIndirect k => Sys2Proof.Machine.execHaltRegisterIndirect k s
  | .loadDirect a => Sys2Proof.Machine.execLoadDirect a s
  | .loadIndirect a => Sys2Proof.Machine.execLoadIndirect a s
  | .loadImmediate n => Sys2Proof.Machine.execLoadImmediate n s
  | .loadRegister k => Sys2Proof.Machine.execLoadRegister k s
  | .loadRegisterIndirect k => Sys2Proof.Machine.execLoadRegisterIndirect k s
  | .storeDirect a => Sys2Proof.Machine.execStoreDirect a s
  | .storeIndirect a => Sys2Proof.Machine.execStoreIndirect a s
  | .storeImmediate n => Sys2Proof.Machine.execStoreImmediate n s
  | .storeRegister k => Sys2Proof.Machine.execStoreRegister k s
  | .storeRegisterIndirect k => Sys2Proof.Machine.execStoreRegisterIndirect k s
  | .addDirect a => Sys2Proof.Machine.execAddDirect a s
  | .addIndirect a => Sys2Proof.Machine.execAddIndirect a s
  | .addImmediate n => Sys2Proof.Machine.execAddImmediate n s
  | .addRegister k => Sys2Proof.Machine.execAddRegister k s
  | .addRegisterIndirect k => Sys2Proof.Machine.execAddRegisterIndirect k s
  | .subDirect a => Sys2Proof.Machine.execSubDirect a s
  | .subIndirect a => Sys2Proof.Machine.execSubIndirect a s
  | .subImmediate n => Sys2Proof.Machine.execSubImmediate n s
  | .subRegister k => Sys2Proof.Machine.execSubRegister k s
  | .subRegisterIndirect k => Sys2Proof.Machine.execSubRegisterIndirect k s
  | .cmpDirect a => Sys2Proof.Machine.execCmpDirect a s
  | .cmpIndirect a => Sys2Proof.Machine.execCmpIndirect a s
  | .cmpImmediate n => Sys2Proof.Machine.execCmpImmediate n s
  | .cmpRegister k => Sys2Proof.Machine.execCmpRegister k s
  | .cmpRegisterIndirect k => Sys2Proof.Machine.execCmpRegisterIndirect k s
  | .jmpDirect a => Sys2Proof.Machine.execJmpDirect a s
  | .jmpIndirect a => Sys2Proof.Machine.execJmpIndirect a s
  | .jmpImmediate n => Sys2Proof.Machine.execJmpImmediate n s
  | .jmpRegister k => Sys2Proof.Machine.execJmpRegister k s
  | .jmpRegisterIndirect k => Sys2Proof.Machine.execJmpRegisterIndirect k s
  | .jzDirect a => Sys2Proof.Machine.execJzDirect a s
  | .jzIndirect a => Sys2Proof.Machine.execJzIndirect a s
  | .jzImmediate n => Sys2Proof.Machine.execJzImmediate n s
  | .jzRegister k => Sys2Proof.Machine.execJzRegister k s
  | .jzRegisterIndirect k => Sys2Proof.Machine.execJzRegisterIndirect k s
  | .jnzDirect a => Sys2Proof.Machine.execJnzDirect a s
  | .jnzIndirect a => Sys2Proof.Machine.execJnzIndirect a s
  | .jnzImmediate n => Sys2Proof.Machine.execJnzImmediate n s
  | .jnzRegister k => Sys2Proof.Machine.execJnzRegister k s
  | .jnzRegisterIndirect k => Sys2Proof.Machine.execJnzRegisterIndirect k s

end Sys2Proof.Machine
end

