-- ==== Sys2Proof/Machine/Step.lean ====
section
/-! DEFINITION. One step of the machine (40_engine.md R184), and where the next instruction is fetched. -/

namespace Sys2Proof.Machine

/-- `step()` of R184: refused when halted (R181); a fault and no fetch when PC > 4095 (R182); otherwise the word at PC goes
to IR, is decoded, and is executed or faulted on (R185). -/
def step (s : State) : Host.Outcome State Fault Refusal :=
  if s.halted then .refused .halted
  else if s.pcOutOfBounds then .next (s.raise (.plain .pcOutOfBounds))
  else
    match decode s.fetch with
    | .invalid why => .next ((s.loadIR s.fetch).raise (undecodable why))
    | .valid i => exec i (s.loadIR s.fetch)

/-- `s` with the word of a table row where `step` fetches next (log entry 4): the low `nbits` bits of `w`. -/
def State.withFetchWord (s : State) (nbits w : Nat) : State :=
  placeFetchWord s (BitVec.ofNat 16 (w % 2 ^ nbits))

end Sys2Proof.Machine
end

