-- ==== Sys2Proof/Machine/Disassembler.lean ====
section
/-! DEFINITION. Numbers as text, operand text and disassembly (30_encoding.md R99, R100). -/

namespace Sys2Proof.Machine

/-- A number in decimal, without sign or leading zeros (R99). -/
def decimal (n : Nat) : Text :=
  Nat.toDigits 10 n

/-- The operand text of R99. -/
def operandText : Operand → Text
  | .direct a => decimal a.toNat
  | .indirect a => '(' :: decimal a.toNat ++ [')']
  | .immediate n => '#' :: decimal n.toNat
  | .register k => 'R' :: decimal k.toNat
  | .registerIndirect k => '(' :: 'R' :: decimal k.toNat ++ [')']

/-- The text of an instruction (R99): the mnemonic, then one space and the operand text, but for a HALT whose operand field
is 0. -/
def instrText (i : Instr) : Text :=
  if i = .haltDirect 0 then i.op.mnemonic
  else i.op.mnemonic ++ ' ' :: operandText i.operand

/-- The marker of a word that is no instruction (R100). -/
def unknownText : Text :=
  ['U', 'N', 'K', 'N', 'O', 'W', 'N']

/-- `disassemble_instruction(word)`: never fails (R99, R100). -/
def disassemble (w : Word) : Text :=
  match decode w with
  | .valid i => instrText i
  | .invalid _ => unknownText

end Sys2Proof.Machine
end

