-- ==== Sys2Proof/Machine/HostPort.lean ====
section
/-! DEFINITION. The host's operations on the machine, between steps (20_memory.md R67): what `step()` returns, the run loop,
the loaders, the two resets. -/

namespace Sys2Proof.Machine

/-! ### What a step returns (40_engine.md R180, R194) -/

/-- The three outcomes of R180 and R14. -/
inductive StepReturn where
  | ok
  | fail
  | fault (kind : FaultKind)
  deriving DecidableEq, Repr

/-- Which of the three a step's answer is. An Ok step is the one that adds 1 to step_count (10_state.md R31); a fault leaves
it alone and latches its kind (60_exceptions.md R242); a refusal is Fail (R181). -/
def returned (before : State) : Host.Outcome State Fault Refusal → StepReturn
  | .next t =>
    if t.stepCount = before.stepCount + 1 then .ok
    else match t.fault with
      | some r => .fault r.kind
      | none => .fail
  | .fault _ => .fail
  | .refused _ => .fail

/-- What `step()` returns at `s`. -/
def stepReturn (s : State) : StepReturn :=
  returned s (step s)

/-- The state `step()` leaves behind; after Fail it is `s` itself (R181). -/
def stepped (s : State) : State :=
  match step s with
  | .next t => t
  | .fault _ => s
  | .refused _ => s

/-- `step() : bool` of R194: Ok is true, Fail and Fault are false. -/
def hostStep (s : State) : Bool × State :=
  (stepReturn s == .ok, stepped s)

/-! ### The run loop (R186) -/

/-- The state `run(max_steps)` leaves behind. -/
def runState : Nat → State → State
  | 0, s => s
  | n + 1, s => if s.halted then s else runState n (stepped s)

/-- `run(max_steps)`: the returned `halted`, and the state. -/
def run (maxSteps : Nat) (s : State) : Bool × State :=
  ((runState maxSteps s).halted, runState maxSteps s)

/-- The three externally visible states of 10_state.md R33. -/
inductive Visible where
  | ready
  | running
  | halted
  deriving DecidableEq, Repr

/-- R33: Halted by the state; Ready or Running by whether the host is inside `run`. -/
def visible (insideRun : Bool) (s : State) : Visible :=
  if s.halted then .halted else if insideRun then .running else .ready

/-! ### Loaders (20_memory.md R60, R61) -/

/-- words[i] to mem[a + i], in order. -/
def writeWords : List Word → Nat → Memory → Memory
  | [], _, m => m
  | w :: ws, a, m => writeWords ws (a + 1) (m.write a w)

/-- R60's conditions: the block lies in 0..4095 and every value is a Word. -/
def loadAccepted (words : List Int) (start : Int) : Bool :=
  decide (0 ≤ start) && decide (start + words.length ≤ (Config.memWords : Int)) &&
    words.all (fun w => decide (0 ≤ w) && decide (w ≤ 65535))

/-- `load_program(words, start_address = 0)`: none is the refusal, with no change to any state (R60). -/
def loadProgram (words : List Int) (s : State) (start : Int := 0) : Option State :=
  if loadAccepted words start then
    some { s with mem := writeWords (words.map (BitVec.ofInt 16)) start.toNat s.mem }
  else none

/-- `load_data(words, start_address)`: the effect and the refusals of `load_program` (R61). -/
def loadData (words : List Int) (start : Int) (s : State) : Option State :=
  loadProgram words s start

/-! ### Resets (70_reset_and_hazards.md) -/

/-- `reset()` of R272: everything but memory as after construction. -/
def softReset (s : State) : State :=
  { State.reset with mem := s.mem }

/-- The full wipe of R273: a soft reset, and every word of memory 0. -/
def fullWipe (s : State) : State :=
  { softReset s with mem := [] }

/-! ### Inspection (10_state.md R34) -/

/-- memory[a] as the host inspects it, for an address that exists. -/
def inspectMemory (s : State) (a : Nat) : Option Word :=
  if a < Config.memWords then some (s.mem.read a) else none

end Sys2Proof.Machine
end

