-- ==== Sys2Proof/Machine/Assembler.lean ====
section
/-! DEFINITION. The two-pass assembler (31_assembler.md): lexical analysis, the label table, operand resolution, the checks
of a line, records or one aggregated error, the listing, and loading what was assembled. -/

namespace Sys2Proof.Machine

/-! ### Lexical structure -/

/-- The lines of a text, split at each LF; a text that ends with LF has an empty last line (R121). -/
def splitLines : Text → List Text
  | [] => [[]]
  | c :: cs =>
    if c = '\n' then [] :: splitLines cs
    else match splitLines cs with
      | [] => [[c]]
      | l :: ls => (c :: l) :: ls

/-- Whitespace: space, tab, carriage return, vertical tab, form feed (R123). -/
def isSpace (c : Char) : Bool :=
  c == ' ' || c == '\t' || c == '\r' || c == Char.ofNat 11 || c == Char.ofNat 12

/-- Everything from the first `;` is removed (R122). -/
def stripComment (t : Text) : Text :=
  t.takeWhile (· != ';')

/-- Without leading and trailing whitespace (R123). -/
def trim (t : Text) : Text :=
  ((t.dropWhile isSpace).reverse.dropWhile isSpace).reverse

/-- Split at runs of whitespace; `current` is the token being read, backwards. -/
def tokensFrom : Text → Text → List Text
  | [], current => if current.isEmpty then [] else [current.reverse]
  | c :: cs, current =>
    if isSpace c then
      (if current.isEmpty then tokensFrom cs [] else current.reverse :: tokensFrom cs [])
    else tokensFrom cs (c :: current)

/-- The tokens of a remainder (R126). -/
def tokens (t : Text) : List Text :=
  tokensFrom t []

/-- The value of a run of decimal digits. -/
def digitsValue (t : Text) : Nat :=
  t.foldl (fun n c => 10 * n + (c.toNat - 48)) 0

/-- `[0-9]+` in decimal, leading zeros allowed. -/
def natLiteral (t : Text) : Option Nat :=
  if t ≠ [] ∧ t.all Char.isDigit then some (digitsValue t) else none

/-- An integer literal `[+-]?[0-9]+`, read in decimal (R128). -/
def intLiteral (t : Text) : Option Int :=
  match t with
  | '+' :: u => (natLiteral u).map Int.ofNat
  | '-' :: u => (natLiteral u).map (fun n => -Int.ofNat n)
  | u => (natLiteral u).map Int.ofNat

/-- The register spelling `[Rr][0-9]+` and its number (R133). -/
def registerNumber (t : Text) : Option Nat :=
  match t with
  | 'R' :: u => natLiteral u
  | 'r' :: u => natLiteral u
  | _ => none

/-- A label name is valid: `[A-Za-z_][A-Za-z0-9_]*`, and not spelled like a register (R125). -/
def validLabel (t : Text) : Bool :=
  match t with
  | [] => false
  | c :: cs =>
    (c.isAlpha || c == '_') && cs.all (fun d => d.isAlphanum || d == '_') && (registerNumber t).isNone

/-- One line of source after R122 to R126: its number, its label text if it has a `:`, and its remainder's tokens. -/
structure SourceLine where
  number : Nat
  label : Option Text
  toks : List Text
  deriving DecidableEq, Repr

/-- A statement line is one whose remainder is not empty (R124). -/
def SourceLine.isStatement (l : SourceLine) : Bool :=
  !l.toks.isEmpty

/-- Comment removal, trimming, the label prefix at the first `:`, and the tokens of the remainder (R122 to R126). -/
def scanLine (number : Nat) (raw : Text) : SourceLine :=
  let t := trim (stripComment raw)
  if t.contains ':' then
    { number := number
      label := some (trim (t.takeWhile (· != ':')))
      toks := tokens ((t.dropWhile (· != ':')).drop 1) }
  else { number := number, label := none, toks := tokens t }

/-- Lines numbered from `n` on. -/
def scanFrom : Nat → List Text → List SourceLine
  | _, [] => []
  | n, raw :: rest => scanLine n raw :: scanFrom (n + 1) rest

/-- Every line of a source, numbered from 1, blank and comment lines included (R121). -/
def scan (source : Text) : List SourceLine :=
  scanFrom 1 (splitLines source)

/-! ### Pass 1: addresses (R129 to R131) -/

/-- A label's first definition: its name, the address it stands for, and the line it stands on. -/
structure LabelEntry where
  name : Text
  address : Nat
  line : Nat
  deriving DecidableEq, Repr

/-- The label table, in source order; names do not repeat (R125). -/
abbrev LabelTable := List LabelEntry

/-- The entry of a name. -/
def LabelTable.find (tbl : LabelTable) (name : Text) : Option LabelEntry :=
  List.find? (fun e => e.name == name) tbl

/-- Record the label of a line at the current counter: only a valid one, and only its first definition (R129, R130). -/
def recordLabel (tbl : LabelTable) (counter : Nat) (l : SourceLine) : LabelTable :=
  match l.label with
  | some name =>
    if validLabel name && (tbl.find name).isNone then tbl ++ [{ name := name, address := counter, line := l.number }]
    else tbl
  | none => tbl

/-- The address counter after a line: one more for every statement line, assembled or not (R129). -/
def advanceCounter (counter : Nat) (l : SourceLine) : Nat :=
  if l.isStatement then counter + 1 else counter

/-- Pass 1 from a counter and a table. -/
def passOneFrom : Nat → LabelTable → List SourceLine → LabelTable
  | _, tbl, [] => tbl
  | n, tbl, l :: ls => passOneFrom (advanceCounter n l) (recordLabel tbl n l) ls

/-- Pass 1: the counter starts at 0 and the table empty (R129). -/
def passOne (lines : List SourceLine) : LabelTable :=
  passOneFrom 0 [] lines

/-! ### Errors and records (R142, R143, R146) -/

/-- The kinds of a line error (R142). -/
inductive LineErrorKind where
  | unknownMnemonic
  | missingOperand
  | unresolvedLabelOrOperand
  | invalidRegisterIndex
  | operandOutOfRange
  | illegalAddressingMode
  | unexpectedOperand
  | invalidLabel
  | duplicateLabel
  deriving DecidableEq, Repr

/-- One line's error: its 1-based line, the kind, and the offending token as the source spells it (R143; log entry 6). -/
structure LineError where
  line : Nat
  kind : LineErrorKind
  text : Text
  deriving DecidableEq, Repr

/-- Every line error of pass 2, in ascending line order (R144). -/
structure AggregatedAssemblyError where
  errors : List LineError
  deriving DecidableEq, Repr

/-- The record of an assembled statement (R146). -/
structure AssembledInstruction where
  word : Word
  mnemonic : Text
  value : Option Nat
  mode : Option Mode
  label : Option Text
  address : Nat
  deriving DecidableEq, Repr

/-! ### Pass 2: code generation (R132 to R141) -/

/-- A register operand: its index, or InvalidRegisterIndex above 15 (R133). -/
def registerOperand (m : Mode) (k : Nat) : Except LineErrorKind (Mode × Int) :=
  if k ≤ 15 then .ok (m, Int.ofNat k) else .error .invalidRegisterIndex

/-- A number or a label as an address (R133, R134). -/
def addressOperand (tbl : LabelTable) (m : Mode) (t : Text) : Except LineErrorKind (Mode × Int) :=
  match intLiteral t with
  | some n => .ok (m, n)
  | none =>
    match tbl.find t with
    | some e => .ok (m, Int.ofNat e.address)
    | none => .error .unresolvedLabelOrOperand

/-- The text between `(` and a final `)`; none where the token is not of that form. -/
def insideParens (t : Text) : Option Text :=
  match t with
  | '(' :: u => if u.getLast? = some ')' then some u.dropLast else none
  | _ => none

/-- The text after a leading `#`. -/
def afterHash (t : Text) : Option Text :=
  match t with
  | '#' :: u => some u
  | _ => none

/-- `resolve(s)` of R133: the first matching form. An immediate never takes a label (R134). -/
def resolve (tbl : LabelTable) (s : Text) : Except LineErrorKind (Mode × Int) :=
  match afterHash s with
  | some t =>
    match intLiteral t with
    | some n => .ok (.immediate, n)
    | none => .error .unresolvedLabelOrOperand
  | none =>
    match insideParens s with
    | some t =>
      match registerNumber t with
      | some k => registerOperand .registerIndirect k
      | none => addressOperand tbl .indirect t
    | none =>
      match registerNumber s with
      | some k => registerOperand .register k
      | none => addressOperand tbl .direct s

/-- The value lies in its mode's range (R139). -/
def inRange (m : Mode) (v : Int) : Bool :=
  decide (0 ≤ v) && decide (v < m.rangeSize)

/-- Checks 1 and 2 of R141: the line's label, if any, is valid and was not defined on an earlier line. -/
def checkLabel (tbl : LabelTable) (l : SourceLine) : Except LineError Unit :=
  match l.label with
  | none => .ok ()
  | some name =>
    if !validLabel name then .error { line := l.number, kind := .invalidLabel, text := name }
    else match tbl.find name with
      | some e =>
        if e.line < l.number then .error { line := l.number, kind := .duplicateLabel, text := name } else .ok ()
      | none => .ok ()

/-- The record's label: the first in source order whose address is the record's (R146). -/
def labelAt (tbl : LabelTable) (address : Nat) : Option Text :=
  (List.find? (fun e => e.address == address) tbl).map LabelEntry.name

/-- Check 4 of R141 (R136): HALT takes no operand token, every other mnemonic exactly one. The error's text is the mnemonic
where an operand is missing, else the first token too many (log entry 6). -/
def checkOperandCount (line : Nat) (op : Opcode) (mnemonic : Text) (operands : List Text) :
    Except LineError (Option Text) :=
  match op, operands with
  | .halt, [] => .ok none
  | .halt, t :: _ => .error { line := line, kind := .unexpectedOperand, text := t }
  | _, [] => .error { line := line, kind := .missingOperand, text := mnemonic }
  | _, [t] => .ok (some t)
  | _, _ :: t :: _ => .error { line := line, kind := .unexpectedOperand, text := t }

/-- Checks 5, 6 and 7 of R141 on the one operand token, and the encoding (R138). -/
def assembleOperand (tbl : LabelTable) (line : Nat) (op : Opcode) (t : Text) :
    Except LineError (Word × Mode × Nat) :=
  match resolve tbl t with
  | .error k => .error { line := line, kind := k, text := t }
  | .ok (m, v) =>
    if !inRange m v then .error { line := line, kind := .operandOutOfRange, text := t }
    else if !legalMode op m then .error { line := line, kind := .illegalAddressingMode, text := t }
    else match encodeTriple op.code m v with
      | .ok w => .ok (w, m, v.toNat)
      | .error _ => .error { line := line, kind := .operandOutOfRange, text := t }

/-- Checks 3 to 7 of R141 on a statement's tokens, and its record at `address` (R132, R146). -/
def assembleStatement (tbl : LabelTable) (line address : Nat) (mnemonic : Text) (operands : List Text) :
    Except LineError AssembledInstruction :=
  match Opcode.ofMnemonic mnemonic with
  | none => .error { line := line, kind := .unknownMnemonic, text := mnemonic }
  | some op =>
    match checkOperandCount line op mnemonic operands with
    | .error e => .error e
    | .ok none =>
      .ok { word := encode (.haltDirect 0), mnemonic := op.mnemonic, value := none, mode := none,
            label := labelAt tbl address, address := address }
    | .ok (some t) =>
      match assembleOperand tbl line op t with
      | .error e => .error e
      | .ok (w, m, v) =>
        .ok { word := w, mnemonic := op.mnemonic, value := some v, mode := some m,
              label := labelAt tbl address, address := address }

/-- One line of pass 2: at most one error, or a record for a statement line (R132, R141). -/
def assembleLine (tbl : LabelTable) (address : Nat) (l : SourceLine) :
    Except LineError (Option AssembledInstruction) :=
  match checkLabel tbl l with
  | .error e => .error e
  | .ok () =>
    match l.toks with
    | [] => .ok none
    | mnemonic :: operands =>
      match assembleStatement tbl l.number address mnemonic operands with
      | .error e => .error e
      | .ok r => .ok (some r)

/-- Pass 2 from a counter: the errors and the records, each in line order; the counter moves as in pass 1 (R132). -/
def passTwoFrom (tbl : LabelTable) : Nat → List SourceLine → List LineError × List AssembledInstruction
  | _, [] => ([], [])
  | n, l :: ls =>
    match assembleLine tbl n l, passTwoFrom tbl (advanceCounter n l) ls with
    | .error e, (errs, recs) => (e :: errs, recs)
    | .ok (some r), (errs, recs) => (errs, r :: recs)
    | .ok none, (errs, recs) => (errs, recs)

/-- Pass 2 over all lines (R132). -/
def passTwo (tbl : LabelTable) (lines : List SourceLine) : List LineError × List AssembledInstruction :=
  passTwoFrom tbl 0 lines

/-- `assemble(source_text)` of R120: all the records, or the aggregated error and nothing else (R144). -/
def assemble (source : Text) : Except AggregatedAssemblyError (List AssembledInstruction) :=
  match passTwo (passOne (scan source)) (scan source) with
  | ([], records) => .ok records
  | (errs, _) => .error { errors := errs }

/-! ### Records as a program and as a listing (R147, R148) -/

/-- The loader input (R147). -/
def recordWords (records : List AssembledInstruction) : List Int :=
  records.map (fun r => Int.ofNat r.word.toNat)

/-- Steps 2 and 3 of the boot sequence (70_reset_and_hazards.md R275): assemble and load at address 0; none where the
source has errors or the program does not fit. -/
def loadSource (source : Text) (s : State) : Option State :=
  match assemble source with
  | .ok records => loadProgram (recordWords records) s
  | .error _ => none

/-- At least `width` characters, filled with `0` on the left. -/
def padZeros (width : Nat) (t : Text) : Text :=
  List.replicate (width - t.length) '0' ++ t

/-- An upper-case hexadecimal digit. -/
def hexDigit (n : BitVec 4) : Char :=
  if n.toNat < 10 then Char.ofNat (48 + n.toNat) else Char.ofNat (55 + n.toNat)

/-- A word as 4 upper-case hexadecimal digits (R148). -/
def hexWord (w : Word) : Text :=
  [hexDigit (w.extractLsb' 12 4), hexDigit (w.extractLsb' 8 4), hexDigit (w.extractLsb' 4 4), hexDigit (w.extractLsb' 0 4)]

/-- The operand part of a listing line: a space and the operand text, nothing for HALT (R148). -/
def listingOperand (r : AssembledInstruction) : Text :=
  match r.mode, r.value with
  | some m, some v => ' ' :: operandText (Operand.ofValue m v)
  | _, _ => []

/-- The label part of a listing line. -/
def listingLabel (r : AssembledInstruction) : Text :=
  match r.label with
  | some name => name ++ [':', ' ']
  | none => []

/-- One line of the listing (R148; addresses above 9999 in log entry 8). -/
def formatRecord (r : AssembledInstruction) : Text :=
  padZeros 4 (decimal r.address) ++ [':', ' '] ++ hexWord r.word ++ [' '] ++ listingLabel r ++ r.mnemonic ++
    listingOperand r

/-- `format_program(instructions)` of R148. -/
def formatProgram (records : List AssembledInstruction) : List Text :=
  records.map formatRecord

end Sys2Proof.Machine
end

