-- ==== Sys2Proof/Safety.lean ====
section
/-! DEFINITION. What the claims call a sound state: the invariant every step and every host operation keeps. -/

namespace Sys2Proof.Machine

/-- The fault latch agrees with the rest of the state, as 60_exceptions.md R241 records each kind: an address exactly for
MemoryOutOfBounds and then one above 4095; PC above 4095 exactly for PcOutOfBounds; the word in IR one that raises the kind. -/
def FaultRecord.Matches (r : FaultRecord) (s : State) : Prop :=
  match r.kind with
  | .pcOutOfBounds => r.ea = none ∧ ¬ s.pc.toNat < Config.memWords
  | .illegalOpcode => r.ea = none ∧ s.pc.toNat < Config.memWords ∧ decode s.ir = .invalid .unknownOpcode
  | .reservedOperand => r.ea = none ∧ s.pc.toNat < Config.memWords ∧ decode s.ir = .invalid .reservedOperand
  | .illegalAddressingMode => r.ea = none ∧ s.pc.toNat < Config.memWords ∧
      ∃ i, decode s.ir = .valid i ∧ i.wellFormed = false
  | .memoryOutOfBounds => s.pc.toNat < Config.memWords ∧
      ∃ a i, r.ea = some a ∧ ¬ a.toNat < Config.memWords ∧ decode s.ir = .valid i ∧ i.wellFormed = true

/-- The sound states: memory in canonical form; PC in 0..4096 (10_state.md R24); a latched fault halts the machine (R30,
R32) and matches the state it was taken in (R241); a machine halted with no fault was halted by a HALT, whose word IR still
holds (43_control.md R236). -/
structure State.Sound (s : State) : Prop where
  memory : s.mem.wf = true
  pc_le : s.pc.toNat ≤ Config.memWords
  fault_halts : s.fault.isSome → s.halted = true
  fault_matches : ∀ r, s.fault = some r → r.Matches s
  halt_was_halt : s.halted = true → s.fault = none → ∃ i, decode s.ir = .valid i ∧ i.op = .halt

end Sys2Proof.Machine
end

