-- ==== Sys2Proof/Certificates/Slice0/Obligations.lean ====
section
/-! DEFINITION. The statements for the provers, and the few predicates they are written with. Clauses that rest on a decision
of 92_eei_decisions.md or on an inference the spec marks as its own name it in their docstring; their basis is 'derived'. -/

namespace Sys2Proof.Claims

open Sys2Proof.Machine

/-- The operand names the word `v` in `s`, as 40_engine.md R191 says mode by mode, and the access is in bounds. -/
def OperandIs (s : State) (v : Word) : Operand → Prop
  | .direct a => s.mem.read a.toNat = v
  | .indirect a => (s.mem.read a.toNat).toNat ≤ 4095 ∧ s.mem.read (s.mem.read a.toNat).toNat = v
  | .immediate n => v = BitVec.ofNat 16 n.toNat
  | .register k => s.getReg k = v
  | .registerIndirect k => (s.getReg k).toNat ≤ 4095 ∧ s.mem.read (s.getReg k).toNat = v

/-- The operand names the address `a`, and `a` is above 4095 (20_memory.md R53; only these two modes can). -/
def OperandOut (s : State) (a : Word) : Operand → Prop
  | .indirect p => s.mem.read p.toNat = a ∧ 4095 < a.toNat
  | .registerIndirect k => s.getReg k = a ∧ 4095 < a.toNat
  | .direct _ | .immediate _ | .register _ => False

/-- The outcome is a next state that has the property `P`. -/
def AnswersNext (o : Host.Outcome State Fault Refusal) (P : State → Prop) : Prop :=
  ∃ t, o = .next t ∧ P t

/-- The lines of a source with the address pass 2 gives each (31_assembler.md R132). -/
def addressed : Nat → List SourceLine → List (Nat × SourceLine)
  | _, [] => []
  | n, l :: ls => (n, l) :: addressed (advanceCounter n l) ls

/-- The error of a line of pass 2, if it has one. -/
def lineError (tbl : LabelTable) (p : Nat × SourceLine) : Option LineError :=
  match assembleLine tbl p.1 p.2 with
  | .error e => some e
  | .ok _ => none

end Sys2Proof.Claims

open Sys2Proof Sys2Proof.Machine Sys2Proof.Claims

/-! ### Encoding and decoding -/

/-- 30_encoding.md R92, first sentence, over `Instr` and over raw triples (R88): what is encoded decodes to itself. -/
def Obligations.DecodeOfEncodeIsIdentity : Prop :=
  (∀ i : Instr, decode (encode i) = .valid i) ∧
    ∀ (op : Nat) (m : Mode) (v : Int), tripleWellFormed op m v = true →
      ∃ w i, encodeTriple op m v = .ok w ∧ decode w = .valid i ∧
        i.op.code = op ∧ i.operand.mode = m ∧ (i.operand.value : Int) = v

/-- The converse of 30_encoding.md R92, which the spec marks as derived from R85, R88 and R90. -/
def Obligations.EncodeOfDecodeIsIdentity : Prop :=
  ∀ (w : Word) (i : Instr), decode w = .valid i → encode i = w

/-- Which words decode to what (30_encoding.md R90, R93, R96; decisions D5 and D6): the opcode is checked first. -/
def Obligations.DecodeVerdictByWordRange : Prop :=
  ∀ w : Word,
    (0x9000 ≤ w.toNat → decode w = .invalid .unknownOpcode) ∧
    (w.toNat < 0x9000 → 1056 ≤ w.toNat % 4096 → decode w = .invalid .reservedOperand) ∧
    (w.toNat < 0x9000 → w.toNat % 4096 < 1056 →
      ∃ i, decode w = .valid i ∧ i.op.code = w.toNat / 4096 ∧
        i.operand.mode.offset + i.operand.value = w.toNat % 4096)

/-- 30_encoding.md R82: opcodes 9..15 are a hard error in both directions, whatever the operand; so is an unknown mnemonic. -/
def Obligations.UndefinedOpcodesAreHardErrors : Prop :=
  (∀ w : Word, 9 ≤ (opcodeField w).toNat → decode w = .invalid .unknownOpcode) ∧
    (∀ (op : Nat) (m : Mode) (v : Int), 9 ≤ op → encodeTriple op m v = .error .unknownOpcode) ∧
    ∀ (t : Text) (m : Mode) (v : Int), Opcode.ofMnemonic t = none → encodeMnemonic t m v = .error .unknownMnemonic

/-- 30_encoding.md R85: the classification of an operand field, range by range. -/
def Obligations.ClassifyPartitionsTheOperandField : Prop :=
  ∀ f : BitVec 12,
    (f.toNat ≤ 255 → ∃ o, classify f = some o ∧ o.mode = .direct ∧ o.value = f.toNat) ∧
    (256 ≤ f.toNat → f.toNat ≤ 511 → ∃ o, classify f = some o ∧ o.mode = .indirect ∧ o.value = f.toNat - 256) ∧
    (512 ≤ f.toNat → f.toNat ≤ 1023 → ∃ o, classify f = some o ∧ o.mode = .immediate ∧ o.value = f.toNat - 512) ∧
    (1024 ≤ f.toNat → f.toNat ≤ 1039 → ∃ o, classify f = some o ∧ o.mode = .register ∧ o.value = f.toNat - 1024) ∧
    (1040 ≤ f.toNat → f.toNat ≤ 1055 →
      ∃ o, classify f = some o ∧ o.mode = .registerIndirect ∧ o.value = f.toNat - 1040) ∧
    (1056 ≤ f.toNat → classify f = none)

/-- 30_encoding.md R87: the offsets and range sizes are what stands in the operand field of every encoded instruction. -/
def Obligations.ModeOffsetsAreTheWireIdentity : Prop :=
  (∀ i : Instr, (operandField (encode i)).toNat = i.operand.mode.offset + i.operand.value ∧
      i.operand.value < i.operand.mode.rangeSize) ∧
    [Mode.direct, .indirect, .immediate, .register, .registerIndirect].map Mode.offset = [0, 256, 512, 1024, 1040] ∧
    [Mode.direct, .indirect, .immediate, .register, .registerIndirect].map Mode.rangeSize = [256, 256, 512, 16, 16]

/-- 30_encoding.md R89, with the upper-casing of ASCII letters that log entry 7 chooses: a mnemonic in either letter case
encodes as its opcode's number does. -/
def Obligations.MnemonicsEncodeInEitherCase : Prop :=
  ∀ (t : Text) (op : Opcode) (m : Mode) (v : Int), upperCase t = op.mnemonic →
    encodeMnemonic t m v = encodeTriple op.code m v

/-- Words written out from the rows of opcode_table.json and 95_test_vectors.md sections 1 and 2.2 decode to the instruction
they stand for; a sanity statement. -/
def Obligations.WrittenWordsDecode : Prop :=
  decode 0x0000 = .valid (.haltDirect 0) ∧ decode 0x1264 = .valid (.loadImmediate 100) ∧
    decode 0x2114 = .valid (.storeIndirect 20) ∧ decode 0x3403 = .valid (.addRegister 3) ∧
    decode 0x441F = .valid (.subRegisterIndirect 15) ∧ decode 0x5207 = .valid (.cmpImmediate 7) ∧
    decode 0x60FF = .valid (.jmpDirect 255) ∧ decode 0x700C = .valid (.jzDirect 12) ∧
    decode 0x8003 = .valid (.jnzDirect 3) ∧ decode 0x0420 = .invalid .reservedOperand ∧
    decode 0x9420 = .invalid .unknownOpcode

/-! ### Reset -/

/-- 70_reset_and_hazards.md R270 and R271, the `fault` field by decision D10: the state after construction. -/
def Obligations.ResetIsAsConstructed : Prop :=
  State.reset.acc = 0 ∧ State.reset.pc = 0 ∧ State.reset.ir = 0 ∧ (∀ k, State.reset.getReg k = 0) ∧
    State.reset.flags = ⟨false, false, false, false⟩ ∧ State.reset.halted = false ∧ State.reset.stepCount = 0 ∧
    State.reset.fault = none ∧ ∀ a, State.reset.mem.read a = 0

/-- 70_reset_and_hazards.md R272 and R273 (decisions D10 and D22): a soft reset keeps memory and gives every other field its
value after construction, so the machine is Ready; a full wipe gives the whole state after construction. -/
def Obligations.ResetsFromEveryState : Prop :=
  ∀ s : State, (∀ a, (softReset s).mem.read a = s.mem.read a) ∧ softReset s = { State.reset with mem := s.mem } ∧
    fullWipe s = State.reset ∧ visible false (softReset s) = .ready

/-! ### Operands and memory -/

/-- 40_engine.md R191 and R192: the place each mode names, before the access itself. -/
def Obligations.OperandsNameTheirPlaces : Prop :=
  ∀ s : State, (∀ a, locate (.direct a) s = .ok (.memory (BitVec.ofNat 16 a.toNat))) ∧
    (∀ a, locate (.indirect a) s = .ok (.memory (s.mem.read a.toNat))) ∧
    (∀ n, locate (.immediate n) s = .ok (.literal (BitVec.ofNat 16 n.toNat))) ∧
    (∀ k, locate (.register k) s = .ok (.register k)) ∧
    ∀ k, locate (.registerIndirect k) s = .ok (.memory (s.getReg k))

/-- 20_memory.md R53 and R54 (decision D3) with R63: an access in bounds reads or writes exactly the named word, and a read
after a write answers the written word; an access out of bounds faults with its address. -/
def Obligations.MemoryAccessReadsAndWritesOneWord : Prop :=
  ∀ (s : State) (a v : Word),
    (a.toNat ≤ 4095 → memRead a s = .ok (s.mem.read a.toNat) ∧
      ∃ t, memWrite a v s = .ok t ∧ memRead a t = .ok v ∧ (∀ b, b ≠ a.toNat → t.mem.read b = s.mem.read b) ∧
        t = { s with mem := t.mem } ∧ (s.mem.wf = true → t.mem.wf = true)) ∧
    (4095 < a.toNat → memRead a s = .error ⟨.memoryOutOfBounds, some a⟩ ∧
      memWrite a v s = .error ⟨.memoryOutOfBounds, some a⟩)

/-- Memories in the model's canonical form that read alike at every address are equal data (the canonical form is the
model's own, log entry 1; 20_memory.md section 1 gives the contents). -/
def Obligations.CanonicalMemoriesReadAlikeOnlyIfEqual : Prop :=
  ∀ m m' : Memory, m.wf = true → m'.wf = true → (∀ a, a ≤ 4095 → m.read a = m'.read a) → m = m'

/-! ### Flags and truncation -/

/-- 40_engine.md R190: the four flags of an unmasked result. -/
def Obligations.FlagFunctionOfTheUnmaskedResult : Prop :=
  ∀ r : Int, ((flagsOf r).zf = true ↔ r % 65536 = 0) ∧ ((flagsOf r).sf = true ↔ 32768 ≤ r % 65536) ∧
    ((flagsOf r).cf = true ↔ r < 0 ∨ 65535 < r) ∧ ((flagsOf r).of = true ↔ r < -32768 ∨ 32767 < r)

/-- 40_engine.md section 3 (R189) and 00_scope.md R11: the stored result is the one Word congruent to r modulo 65536. -/
def Obligations.TruncationIsTheCongruentWord : Prop :=
  ∀ (r : Int) (w : Word), w = trunc16 r ↔ (65536 : Int) ∣ r - w.toNat

/-! ### What each instruction does, and that it completes -/

/-- LOAD, 41_data_transfer.md R210 (the flags by decision D11): for every operand in bounds, whose word is v. Covers loadDirect,
loadIndirect, loadImmediate, loadRegister, loadRegisterIndirect. -/
def Obligations.LoadCompletes : Prop :=
  ∀ (s : State) (o : Operand) (v : Word), OperandIs s v o →
    exec (Instr.of .load o) s = .next { s with
      acc := v
      flags := { zf := decide (v = 0), sf := decide (32768 ≤ v.toNat), cf := false, of := decide (32767 < v.toNat) }
      pc := s.pc + 1
      stepCount := s.stepCount + 1 }

/-- STORE to memory, 41_data_transfer.md R211: the word at the place the operand names, and nothing else, becomes ACC. Covers
storeDirect, storeIndirect, storeRegisterIndirect. -/
def Obligations.StoreToMemoryCompletes : Prop :=
  ∀ (s : State) (o : Operand) (ea : Word), locate o s = .ok (.memory ea) → ea.toNat ≤ 4095 →
    AnswersNext (exec (Instr.of .store o) s) fun t =>
      t.mem.read ea.toNat = s.acc ∧ (∀ b, b ≠ ea.toNat → t.mem.read b = s.mem.read b) ∧
        t = { s with mem := t.mem, pc := s.pc + 1, stepCount := s.stepCount + 1 }

/-- STORE to a register, 41_data_transfer.md R211: R[k] becomes ACC, R0 like any other, and nothing else changes. Covers
storeRegister. -/
def Obligations.StoreToRegisterCompletes : Prop :=
  ∀ (s : State) (k : BitVec 4), AnswersNext (exec (.storeRegister k) s) fun t =>
    t.getReg k = s.acc ∧ (∀ j, j ≠ k → t.getReg j = s.getReg j) ∧
      t = { s with regs := t.regs, pc := s.pc + 1, stepCount := s.stepCount + 1 }

/-- ADD, 42_arithmetic.md R220. Covers addDirect, addIndirect, addImmediate, addRegister, addRegisterIndirect. -/
def Obligations.AddCompletes : Prop :=
  ∀ (s : State) (o : Operand) (v : Word), OperandIs s v o →
    exec (Instr.of .add o) s = .next { s with
      acc := s.acc + v
      flags :=
        { zf := decide (s.acc.toNat + v.toNat = 0 ∨ s.acc.toNat + v.toNat = 65536)
          sf := decide (32768 ≤ (s.acc + v).toNat)
          cf := decide (65535 < s.acc.toNat + v.toNat)
          of := decide (32767 < s.acc.toNat + v.toNat) }
      pc := s.pc + 1
      stepCount := s.stepCount + 1 }

/-- SUB, 42_arithmetic.md R221. Covers subDirect, subIndirect, subImmediate, subRegister, subRegisterIndirect. -/
def Obligations.SubCompletes : Prop :=
  ∀ (s : State) (o : Operand) (v : Word), OperandIs s v o →
    exec (Instr.of .sub o) s = .next { s with
      acc := s.acc - v
      flags :=
        { zf := decide (s.acc = v)
          sf := decide (32768 ≤ (s.acc - v).toNat)
          cf := decide (s.acc.toNat < v.toNat)
          of := decide ((s.acc.toNat : Int) - v.toNat < -32768 ∨ 32767 < (s.acc.toNat : Int) - v.toNat) }
      pc := s.pc + 1
      stepCount := s.stepCount + 1 }

/-- CMP, 42_arithmetic.md R222: the flags of SUB, ACC kept. Covers cmpDirect, cmpIndirect, cmpImmediate, cmpRegister,
cmpRegisterIndirect. -/
def Obligations.CmpCompletes : Prop :=
  ∀ (s : State) (o : Operand) (v : Word), OperandIs s v o →
    exec (Instr.of .cmp o) s = .next { s with
      flags :=
        { zf := decide (s.acc = v)
          sf := decide (32768 ≤ (s.acc - v).toNat)
          cf := decide (s.acc.toNat < v.toNat)
          of := decide ((s.acc.toNat : Int) - v.toNat < -32768 ∨ 32767 < (s.acc.toNat : Int) - v.toNat) }
      pc := s.pc + 1
      stepCount := s.stepCount + 1 }

/-- JMP, JZ and JNZ in direct mode, 43_control.md R231 to R233: only PC and step_count change. Covers jmpDirect, jzDirect,
jnzDirect. -/
def Obligations.DirectJumpsComplete : Prop :=
  ∀ (s : State) (a : BitVec 8),
    exec (.jmpDirect a) s = .next { s with pc := BitVec.ofNat 16 a.toNat, stepCount := s.stepCount + 1 } ∧
    exec (.jzDirect a) s = .next { s with
      pc := if s.flags.zf = true then BitVec.ofNat 16 a.toNat else s.pc + 1, stepCount := s.stepCount + 1 } ∧
    exec (.jnzDirect a) s = .next { s with
      pc := if s.flags.zf = true then s.pc + 1 else BitVec.ofNat 16 a.toNat, stepCount := s.stepCount + 1 }

/-- HALT with any operand, 43_control.md R236 (decisions D9 and D30): halted, PC frozen, one more step. Covers haltDirect,
haltIndirect, haltImmediate, haltRegister, haltRegisterIndirect. -/
def Obligations.HaltCompletes : Prop :=
  ∀ (s : State) (o : Operand),
    exec (Instr.of .halt o) s = .next { s with halted := true, stepCount := s.stepCount + 1 }

/-- STORE immediate and the jumps in a mode other than direct, 40_engine.md R193 (decisions D7 and D8): their whole effect is
the fault entry of 60_exceptions.md R242, in every state. Covers storeImmediate and the indirect, immediate, register and
registerIndirect constructors of jmp, jz and jnz. -/
def Obligations.IllegalModesTakeTheirFault : Prop :=
  ∀ (s : State) (op : Opcode) (o : Operand),
    (op = .store ∧ o.mode = .immediate) ∨ ((op = .jmp ∨ op = .jz ∨ op = .jnz) ∧ o.mode ≠ .direct) →
      exec (Instr.of op o) s = .next { s with halted := true, fault := some ⟨.illegalAddressingMode, none⟩ }

/-- 20_memory.md R53 and R54 (decisions D3 and D10): where an operand's address is above 4095, the five instructions that
access it take MemoryOutOfBounds with that address, and nothing else changes. -/
def Obligations.OutOfBoundsOperandsTakeTheirFault : Prop :=
  ∀ (s : State) (op : Opcode) (o : Operand) (a : Word), op ∈ [Opcode.load, .store, .add, .sub, .cmp] →
    OperandOut s a o →
      exec (Instr.of op o) s = .next { s with halted := true, fault := some ⟨.memoryOutOfBounds, some a⟩ }

/-! ### Rules over all instructions -/

/-- 40_engine.md R183: the next PC of an instruction that executes without fault (it counts as a step). -/
def Obligations.NextPcOfEveryInstruction : Prop :=
  ∀ (i : Instr) (s t : State), exec i s = .next t → t.stepCount = s.stepCount + 1 →
    t.pc = match i.op with
      | .load | .store | .add | .sub | .cmp => s.pc + 1
      | .halt => s.pc
      | .jmp => BitVec.ofNat 16 i.operand.value
      | .jz => if s.flags.zf = true then BitVec.ofNat 16 i.operand.value else s.pc + 1
      | .jnz => if s.flags.zf = true then s.pc + 1 else BitVec.ofNat 16 i.operand.value

/-- The writers of each piece of state, 10_state.md R35 (derived there from R22 to R32): no other instruction changes it, and a
fault changes only halted and the latch. -/
def Obligations.OnlyTheListedInstructionsWrite : Prop :=
  ∀ (i : Instr) (s t : State), exec i s = .next t →
    (t.acc ≠ s.acc → i.op = .load ∨ i.op = .add ∨ i.op = .sub) ∧
    (t.flags ≠ s.flags → i.op = .load ∨ i.op = .add ∨ i.op = .sub ∨ i.op = .cmp) ∧
    (∀ k, t.getReg k ≠ s.getReg k → i = .storeRegister k) ∧
    (∀ a, t.mem.read a ≠ s.mem.read a → i.op = .store ∧ locate i.operand s = .ok (.memory (BitVec.ofNat 16 a))) ∧
    (t.halted ≠ s.halted → i.op = .halt ∨ ∃ r, t = { s with halted := true, fault := some r }) ∧
    (t.fault ≠ s.fault → ∃ r, t = { s with halted := true, fault := some r }) ∧
    t.ir = s.ir ∧ (t.stepCount = s.stepCount + 1 ∨ ∃ r, t = { s with halted := true, fault := some r })

/-- Every instruction answers a next state in every state: the model stops on none (60_exceptions.md section 1 gives every
fault an entry; log entry 2). -/
def Obligations.EveryInstructionAnswersNext : Prop :=
  ∀ (i : Instr) (s : State), ∃ t, exec i s = .next t

/-- 10_state.md R25: every step that fetches writes IR, no instruction reads it, and it is 0 after both resets. -/
def Obligations.InstructionRegisterIsWrittenNeverRead : Prop :=
  (∀ s : State, s.halted = false → s.pc.toNat ≤ 4095 →
      AnswersNext (step s) fun t => t.ir = s.mem.read s.pc.toNat) ∧
    (∀ (i : Instr) (s t : State) (w : Word), exec i s = .next t →
      exec i { s with ir := w } = .next { t with ir := w }) ∧
    State.reset.ir = 0 ∧ ∀ s : State, (softReset s).ir = 0

/-- 10_state.md R29 (derived there from the opcode list): SF, CF and OF are read by no instruction, so two runs whose states
differ only in them stay equal in everything but the flags, and agree on ZF. -/
def Obligations.RunsCannotDependOnSignCarryOverflow : Prop :=
  ∀ (n : Nat) (s : State) (f : Flags), f.zf = s.flags.zf →
    ∃ g : Flags, runState n { s with flags := f } = { runState n s with flags := g } ∧
      g.zf = (runState n s).flags.zf

/-! ### The step -/

/-- A step runs the decoded instruction (40_engine.md section 1, R184): where the word at PC decodes to i, the step loads IR
with the word and is i's meaning there; nothing else is added around it. -/
def Obligations.StepRunsTheDecodedInstruction : Prop :=
  ∀ (s : State) (i : Instr), s.halted = false → s.pc.toNat ≤ 4095 → decode (s.mem.read s.pc.toNat) = .valid i →
    step s = exec i { s with ir := s.mem.read s.pc.toNat }

/-- 40_engine.md R181: on a halted machine step returns Fail and changes no state. -/
def Obligations.HaltedStepFailsAndChangesNothing : Prop :=
  ∀ s : State, s.halted = true → step s = .refused .halted ∧ stepReturn s = .fail ∧ stepped s = s

/-- The first condition in the order of 60_exceptions.md R243 decides what a step returns (decisions D3 to D10 and D29): the
five faults, each only where no earlier one holds, and Ok where none does. -/
def Obligations.FirstConditionDecidesTheStep : Prop :=
  ∀ s : State, s.halted = false →
    (4095 < s.pc.toNat → stepReturn s = .fault .pcOutOfBounds) ∧
    (s.pc.toNat ≤ 4095 → 8 < (opcodeField (s.mem.read s.pc.toNat)).toNat → stepReturn s = .fault .illegalOpcode) ∧
    (s.pc.toNat ≤ 4095 → (opcodeField (s.mem.read s.pc.toNat)).toNat ≤ 8 →
      1055 < (operandField (s.mem.read s.pc.toNat)).toNat → stepReturn s = .fault .reservedOperand) ∧
    (∀ i, s.pc.toNat ≤ 4095 → decode (s.mem.read s.pc.toNat) = .valid i → i.wellFormed = false →
      stepReturn s = .fault .illegalAddressingMode) ∧
    (∀ i a, s.pc.toNat ≤ 4095 → decode (s.mem.read s.pc.toNat) = .valid i → i.wellFormed = true → i.op ≠ .halt →
      OperandOut s a i.operand → stepReturn s = .fault .memoryOutOfBounds) ∧
    (∀ i, s.pc.toNat ≤ 4095 → decode (s.mem.read s.pc.toNat) = .valid i → i.wellFormed = true →
      (i.op = .halt ∨ ∀ a, ¬ OperandOut s a i.operand) → stepReturn s = .ok)

/-- Faults are precise, 60_exceptions.md R242 (decision D10): the state is the one before the step but for IR, halted and the
latch; IR is the fetched word, except that PcOutOfBounds fetches none; an address is latched for MemoryOutOfBounds only. -/
def Obligations.FaultEntryIsPrecise : Prop :=
  ∀ (s : State) (k : FaultKind), stepReturn s = .fault k → ∃ ea : Option Word,
    step s = .next { s with
      ir := if k = .pcOutOfBounds then s.ir else s.mem.read s.pc.toNat
      halted := true
      fault := some ⟨k, ea⟩ } ∧
    (k ≠ .memoryOutOfBounds → ea = none) ∧ (k = .memoryOutOfBounds → ∃ a, ea = some a ∧ 4095 < a.toNat)

/-- 20_memory.md R66 (derived there from R59 and R63): a STORE that writes the next instruction's word is seen by the next
fetch. -/
def Obligations.StoredWordIsFetchedNext : Prop :=
  ∀ (s : State) (o : Operand), s.halted = false → s.pc.toNat < 4095 →
    decode (s.mem.read s.pc.toNat) = .valid (Instr.of .store o) → locate o s = .ok (.memory (s.pc + 1)) →
      AnswersNext (step s) fun t => t.halted = false ∧ t.pc = s.pc + 1 ∧ t.fetch = s.acc

/-! ### Invariants -/

/-- Every step keeps the sound states (Safety.lean): memory canonical, PC in 0..4096 (10_state.md R24), a latched fault halts
and matches IR and PC (60_exceptions.md R241), a halt without fault was a HALT (10_state.md R30). -/
def Obligations.StepKeepsSound : Prop :=
  ∀ s t : State, s.Sound → step s = .next t → t.Sound

/-- The state after construction is sound. -/
def Obligations.ResetIsSound : Prop :=
  State.reset.Sound

/-- The host's operations keep the sound states: both resets, an accepted load, and every run of bounded length. -/
def Obligations.HostOperationsKeepSound : Prop :=
  ∀ s : State, s.Sound → (softReset s).Sound ∧ (fullWipe s).Sound ∧ (∀ n, (runState n s).Sound) ∧
    ∀ (words : List Int) (start : Int) (t : State), loadProgram words s start = some t → t.Sound

/-! ### The run loop and the loaders -/

/-- 40_engine.md R186 and 10_state.md R33 (decisions D4, D10, D13): the body of the loop is one step, where the machine is not
halted; a step that answers a next state leaves that state behind; a run of m + n steps is a run of m then a run of n; a halted
machine stays as it is; `run` answers `halted`. -/
def Obligations.RunsComposeAndStopWhenHalted : Prop :=
  (∀ s : State, runState 0 s = s) ∧
    (∀ (n : Nat) (s t : State), s.halted = false → step s = .next t →
      stepped s = t ∧ runState (n + 1) s = runState n t) ∧
    (∀ (m n : Nat) (s : State), runState (m + n) s = runState n (runState m s)) ∧
    (∀ (n : Nat) (s : State), s.halted = true → runState n s = s) ∧
    ∀ (n : Nat) (s : State), run n s = ((runState n s).halted, runState n s)

/-- 40_engine.md R187 in general: a run of n steps that ends not halted took exactly n counted steps, and took no fault. -/
def Obligations.RunsNotHaltedCountEveryStep : Prop :=
  ∀ (n : Nat) (s : State), (runState n s).halted = false →
    (runState n s).stepCount = s.stepCount + n ∧ (runState n s).fault = s.fault

/-- 20_memory.md R60 and R61 (decision D21): a load is accepted exactly when the block fits and every value is a Word; then it
writes the block and nothing else; a refused load gives no state. -/
def Obligations.LoadersWriteTheBlockOrNothing : Prop :=
  ∀ (s : State) (words : List Int) (start : Int),
    ((loadProgram words s start).isSome = true ↔
      0 ≤ start ∧ start + words.length ≤ 4096 ∧ ∀ w ∈ words, 0 ≤ w ∧ w ≤ 65535) ∧
    loadData words start s = loadProgram words s start ∧
    ∀ t, loadProgram words s start = some t →
      t = { s with mem := t.mem } ∧
      (∀ (i : Nat) (h : i < words.length), ((t.mem.read (start.toNat + i)).toNat : Int) = words[i]) ∧
      ∀ a : Nat, (a : Int) < start ∨ start + words.length ≤ a → t.mem.read a = s.mem.read a

/-! ### Disassembly and the assembler -/

/-- 30_encoding.md R100 and R101 (decision D15): the marker stands for the invalid words and for them alone, and the text of a
valid word determines the word. -/
def Obligations.DisassemblyIsLosslessOnValidWords : Prop :=
  (∀ w : Word, disassemble w = unknownText ↔ ∃ why, decode w = .invalid why) ∧
    ∀ (w w' : Word) (i : Instr), decode w = .valid i → disassemble w = disassemble w' → w = w'

/-- 31_assembler.md R149, first sentence (derived there): assembling the disassembly of a canonical word gives the word. -/
def Obligations.DisassemblyReassemblesCanonicalWords : Prop :=
  ∀ i : Instr, i.canonical = true →
    ∃ r : AssembledInstruction, assemble (disassemble (encode i)) = .ok [r] ∧ r.word = encode i ∧ r.address = 0

/-- 31_assembler.md R149, second sentence, with R146 and R137 (decisions D7 to D9, D25): every record's word is canonical and
decodes to the record's mnemonic, mode and value. -/
def Obligations.AssembledRecordsDecodeToThemselves : Prop :=
  ∀ (source : Text) (records : List AssembledInstruction), assemble source = .ok records →
    ∀ r ∈ records, ∃ i : Instr, decode r.word = .valid i ∧ i.canonical = true ∧ r.mnemonic = i.op.mnemonic ∧
      (i.op = .halt → r.mode = none ∧ r.value = none) ∧
      (i.op ≠ .halt → r.mode = some i.operand.mode ∧ r.value = some i.operand.value)

/-- 31_assembler.md R140 and R146 (decision D28): one record per statement line, at the addresses 0, 1, 2, … in source order. -/
def Obligations.AssembledAddressesCountFromZero : Prop :=
  ∀ (source : Text) (records : List AssembledInstruction), assemble source = .ok records →
    records.map AssembledInstruction.address = List.range records.length ∧
      records.length = ((scan source).filter SourceLine.isStatement).length

/-- 31_assembler.md R144: the aggregated error holds the error of every failing line, one per line, lines rising, and is
returned exactly when some line fails. -/
def Obligations.AggregatedErrorListsEveryFailingLine : Prop :=
  ∀ source : Text,
    (∀ e, assemble source = .error e →
      e.errors = (addressed 0 (scan source)).filterMap (lineError (passOne (scan source))) ∧
        e.errors ≠ [] ∧ (e.errors.map LineError.line).Pairwise (· < ·)) ∧
    ((∃ e, assemble source = .error e) ↔
      ∃ p ∈ addressed 0 (scan source), (lineError (passOne (scan source)) p).isSome = true) ∧
    ∀ p ∈ addressed 0 (scan source), ∀ e, lineError (passOne (scan source)) p = some e → e.line = p.2.number

/-- 31_assembler.md R129 to R131 (decision D17): the table holds exactly the first definitions. Each entry is a valid label of
the line it names, stands once, and its address is the number of statement lines before that line; and each valid label of a
line has an entry of its name, from that line or an earlier one. -/
def Obligations.LabelTableHoldsFirstDefinitions : Prop :=
  ∀ source : Text,
    ((passOne (scan source)).map LabelEntry.name).Nodup ∧
    (∀ e ∈ passOne (scan source), validLabel e.name = true ∧
      (∃ l ∈ scan source, l.number = e.line ∧ l.label = some e.name) ∧
      e.address = ((scan source).filter fun l => l.isStatement && decide (l.number < e.line)).length) ∧
    ∀ l ∈ scan source, ∀ name, l.label = some name → validLabel name = true →
      ∃ e ∈ passOne (scan source), e.name = name ∧ e.line ≤ l.number

/-- 31_assembler.md R147 with 20_memory.md R60 (decisions D21 and D28): an assembled program of at most 4096 records loads at
address 0, each record's word at the record's address; a longer one is refused. -/
def Obligations.AssembledProgramsLoadAtZero : Prop :=
  ∀ (source : Text) (records : List AssembledInstruction) (s : State), assemble source = .ok records →
    (records.length ≤ 4096 → ∃ t, loadSource source s = some t ∧ (∀ r ∈ records, t.mem.read r.address = r.word) ∧
      t = { s with mem := t.mem }) ∧
    (4096 < records.length → loadSource source s = none)
end

