-- ==== Sys2Proof/Laws/Assembler.lean ====
section
/-! SUPPORT. The assembler's small lemmas: what success and failure are, which line an error names, how lines are numbered. -/

namespace Sys2Proof.Machine

/-- An error of a statement names the statement's line (31_assembler.md R143). -/
theorem assembleStatement_error_line {tbl : LabelTable} {line addr : Nat} {mn : Text} {ops : List Text} {e : LineError} (h : assembleStatement tbl line addr mn ops = .error e) : e.line = line := by
  unfold assembleStatement at h
  split at h
  · cases h; rfl
  · split at h
    · rename_i op hop e' he
      cases h
      unfold checkOperandCount at he
      split at he <;> cases he <;> rfl
    · cases h
    · split at h
      · rename_i he
        cases h
        unfold assembleOperand at he
        split at he
        · cases he; rfl
        · split at he
          · cases he; rfl
          · split at he
            · cases he; rfl
            · split at he
              · cases he
              · cases he; rfl
      · cases h

/-- An error of a line names that line. -/
theorem assembleLine_error_line {tbl : LabelTable} {n : Nat} {l : SourceLine} {e : LineError} (h : assembleLine tbl n l = .error e) : e.line = l.number := by
  unfold assembleLine at h
  split at h
  · rename_i he
    cases h
    unfold checkLabel at he
    split at he
    · cases he
    · split at he
      · cases he; rfl
      · split at he
        · split at he
          · cases he; rfl
          · cases he
        · cases he
  · split at h
    · cases h
    · split at h
      · rename_i he; cases h; exact assembleStatement_error_line he
      · cases h

/-- A line that assembles to nothing is no statement line. -/
theorem assembleLine_none {tbl : LabelTable} {n : Nat} {l : SourceLine} (h : assembleLine tbl n l = .ok none) : l.isStatement = false := by
  unfold assembleLine at h
  split at h
  · cases h
  · split at h
    · rename_i hl; simp [SourceLine.isStatement, hl]
    · split at h <;> cases h

/-- Success is pass 2 without an error (R120, R144). -/
theorem assemble_ok {source : Text} {records : List AssembledInstruction} (h : assemble source = .ok records) :
    passTwoFrom (passOne (scan source)) 0 (scan source) = ([], records) := by
  unfold assemble at h
  split at h
  · rename_i h'; cases h; exact h'
  · cases h

/-- Lines are numbered in rising order (R121). -/
theorem scanFrom_sorted (n : Nat) (ls : List Text) : ((scanFrom n ls).map SourceLine.number).Pairwise (· < ·) ∧ ∀ l ∈ scanFrom n ls, n ≤ l.number := by
  have hn : ∀ n raw, (scanLine n raw).number = n := by intro n raw; unfold scanLine; dsimp only; split <;> rfl
  induction ls generalizing n with
  | nil => exact ⟨List.Pairwise.nil, fun l h => by cases h⟩
  | cons r ls ih =>
    obtain ⟨h1, h2⟩ := ih (n+1)
    simp only [scanFrom, List.map_cons, List.pairwise_cons, List.mem_cons]
    refine ⟨⟨?_, h1⟩, ?_⟩
    · intro a ha
      obtain ⟨l, hl, rfl⟩ := List.mem_map.1 ha
      have := h2 l hl
      rw [hn]; omega
    · rintro l (rfl | hl)
      · rw [hn]
      · have := h2 l hl; omega

end Sys2Proof.Machine
end

