-- ==== Sys2Proof/Laws/Codec.lean ====
section
/-! SUPPORT. The codec's small lemmas: the (opcode, operand) view, the fields of a word, and where the packed word puts them. -/

namespace Sys2Proof

/-! ### The view of an instruction as an opcode and an operand -/

@[simp] theorem Instr.of_op_operand (i : Instr) : Instr.of i.op i.operand = i := by
  cases i <;> rfl

@[simp] theorem Instr.op_of (op : Opcode) (o : Operand) : (Instr.of op o).op = op := by
  cases op <;> cases o <;> rfl

@[simp] theorem Instr.operand_of (op : Opcode) (o : Operand) : (Instr.of op o).operand = o := by
  cases op <;> cases o <;> rfl

/-! ### Opcodes -/

@[simp] theorem Opcode.ofCode_code (op : Opcode) : Opcode.ofCode op.code = some op := by
  cases op <;> rfl

theorem Opcode.code_le (op : Opcode) : op.code ≤ 8 := by
  cases op <;> decide

/-- A field value names an opcode exactly when it is at most 8 (30_encoding.md R81, R82). -/
theorem Opcode.ofCode_eq_none_iff (n : Nat) : Opcode.ofCode n = none ↔ 8 < n := by
  match n with
  | 0 | 1 | 2 | 3 | 4 | 5 | 6 | 7 | 8 => simp [Opcode.ofCode]
  | n + 9 => simp [Opcode.ofCode]

theorem Opcode.code_of_ofCode {n : Nat} {op : Opcode} (h : Opcode.ofCode n = some op) : op.code = n := by
  match n with
  | 0 | 1 | 2 | 3 | 4 | 5 | 6 | 7 | 8 =>
    simp only [Opcode.ofCode, Option.some.injEq] at h
    subst h
    rfl
  | n + 9 => simp [Opcode.ofCode] at h

/-! ### Operands -/

theorem Operand.value_lt (o : Operand) : o.value < o.mode.rangeSize := by
  cases o <;> exact BitVec.isLt _

@[simp] theorem Operand.ofValue_mode_value (o : Operand) : Operand.ofValue o.mode o.value = o := by
  cases o <;> simp [Operand.ofValue, Operand.mode, Operand.value]

@[simp] theorem Operand.mode_ofValue (m : Mode) (v : Nat) : (Operand.ofValue m v).mode = m := by
  cases m <;> rfl

theorem Operand.value_ofValue {m : Mode} {v : Nat} (h : v < m.rangeSize) : (Operand.ofValue m v).value = v := by
  cases m <;> simp only [Operand.ofValue, Operand.value, Mode.rangeSize] at * <;>
    exact BitVec.toNat_ofNat .. ▸ Nat.mod_eq_of_lt h

/-- A mode's range ends at most at 1055 (30_encoding.md R84). -/
theorem Mode.offset_add_lt {m : Mode} {v : Nat} (h : v < m.rangeSize) : m.offset + v < 1056 := by
  cases m <;> simp only [Mode.offset, Mode.rangeSize] at * <;> omega

/-! ### The fields of a word -/

theorem opcodeField_toNat (w : Word) : (opcodeField w).toNat = w.toNat / 4096 := by
  have := w.isLt
  simp only [opcodeField, BitVec.extractLsb'_toNat, Nat.shiftRight_eq_div_pow]
  omega

theorem operandField_toNat (w : Word) : (operandField w).toNat = w.toNat % 4096 := by
  simp only [operandField, BitVec.extractLsb'_toNat, Nat.shiftRight_zero]

/-- The packed word read as a number (30_encoding.md R88): the mask never changes a value in its mode's range. -/
theorem packWord_toNat {op : Nat} {m : Mode} {v : Nat} (hop : op < 16) (hv : v < m.rangeSize) :
    (packWord op m v).toNat = op * 4096 + (m.offset + v) := by
  have hlt := Mode.offset_add_lt hv
  unfold packWord
  generalize m.offset + v = x at hlt
  have hmask : x % 65536 &&& 4095 = x := by
    rw [Nat.mod_eq_of_lt (by omega), show (4095 : Nat) = 2 ^ 12 - 1 from rfl, Nat.and_two_pow_sub_one_eq_mod]
    exact Nat.mod_eq_of_lt (by omega)
  have hop' : ((op % 65536) <<< 12) % 65536 = op <<< 12 := by
    rw [Nat.mod_eq_of_lt (a := op) (by omega), Nat.shiftLeft_eq]
    exact Nat.mod_eq_of_lt (by omega)
  simp only [BitVec.toNat_or, BitVec.toNat_shiftLeft, BitVec.toNat_ofNat, BitVec.toNat_and, Nat.reducePow,
    Nat.reduceMod, hmask, hop']
  rw [Nat.shiftLeft_eq, Nat.mul_comm, Nat.two_pow_add_eq_or_of_lt (i := 12) (by omega)]

/-! ### Classification (30_encoding.md R85), both ways -/

/-- The field an operand is packed into classifies as that operand. -/
theorem classify_of (o : Operand) (f : BitVec 12) (h : f.toNat = o.mode.offset + o.value) : classify f = some o := by
  have hv := o.value_lt
  cases o <;> simp only [Operand.mode, Operand.value, Mode.offset, Mode.rangeSize, classify] at * <;> rw [h]
  case direct a => rw [if_pos (by omega)]; simp [Operand.ofValue]
  case indirect a => rw [if_neg (by omega), if_pos (by omega)]; simp [Operand.ofValue]
  case immediate a => rw [if_neg (by omega), if_neg (by omega), if_pos (by omega)]; simp [Operand.ofValue]
  case register a => rw [if_neg (by omega), if_neg (by omega), if_neg (by omega), if_pos (by omega)]; simp [Operand.ofValue]
  case registerIndirect a => rw [if_neg (by omega), if_neg (by omega), if_neg (by omega), if_neg (by omega), if_pos (by omega)]; simp [Operand.ofValue]

/-- Only the field an operand is packed into classifies as it. -/
theorem classify_some {f : BitVec 12} {o : Operand} (h : classify f = some o) : f.toNat = o.mode.offset + o.value := by
  simp only [classify] at h
  split at h
  · cases h; rw [Operand.mode_ofValue, Operand.value_ofValue (by simp only [Mode.rangeSize]; omega)]; simp [Mode.offset]
  split at h
  · cases h; rw [Operand.mode_ofValue, Operand.value_ofValue (by simp only [Mode.rangeSize]; omega)]; simp only [Mode.offset]; omega
  split at h
  · cases h; rw [Operand.mode_ofValue, Operand.value_ofValue (by simp only [Mode.rangeSize]; omega)]; simp only [Mode.offset]; omega
  split at h
  · cases h; rw [Operand.mode_ofValue, Operand.value_ofValue (by simp only [Mode.rangeSize]; omega)]; simp only [Mode.offset]; omega
  split at h
  · cases h; rw [Operand.mode_ofValue, Operand.value_ofValue (by simp only [Mode.rangeSize]; omega)]; simp only [Mode.offset]; omega
  · cases h

/-- The reserved range (R84). -/
theorem classify_none_iff (f : BitVec 12) : classify f = none ↔ 1056 ≤ f.toNat := by
  simp only [classify]
  split_ifs <;> simp <;> omega

end Sys2Proof
end

