-- ==== Sys2Proof/Laws/Flags.lean ====
section
/-! SUPPORT. Truncation as arithmetic on integers. -/

namespace Sys2Proof.Machine

/-- The truncated result is the remainder modulo 65536, also for a negative result (00_scope.md R11). -/
theorem trunc16_toNat (r : Int) : ((trunc16 r).toNat : Int) = r % 65536 := by
  simp [trunc16, BitVec.toNat_ofInt]
  omega

@[simp] theorem trunc16_natCast (n : Nat) : trunc16 (n : Int) = BitVec.ofNat 16 n := by
  simp [trunc16]

/-- `bit15(r)` is `trunc16(r) >= 32768` (00_scope.md R12). -/
theorem bit15_eq (r : Int) : bit15 r = decide (32768 ≤ (trunc16 r).toNat) := by
  rw [bit15, BitVec.msb_eq_decide]

end Sys2Proof.Machine
end

