-- ==== Sys2Proof/Laws/Memory.lean ====
section
/-! SUPPORT. The laws of memory: a read after a write, and the canonical form that every operation keeps. -/

namespace Sys2Proof.Machine

@[simp] theorem Memory.read_nil (a : Nat) : Memory.read [] a = 0#16 := rfl

theorem Memory.wf_nil : Memory.wf [] = true := rfl

/-- What the canonical form says of a non-empty memory. -/
theorem Memory.wfFrom_cons {lo a : Nat} {v : Word} {m : Memory} :
    Memory.wfFrom lo ((a, v) :: m) = true ↔
      lo ≤ a ∧ a < Config.memWords ∧ v ≠ 0#16 ∧ Memory.wfFrom (a + 1) m = true := by
  simp [Memory.wfFrom, and_assoc]

/-- The lower bound of a canonical form may be lowered. -/
theorem Memory.wfFrom_mono {lo lo' : Nat} {m : Memory} (h : lo' ≤ lo) (hm : Memory.wfFrom lo m = true) :
    Memory.wfFrom lo' m = true := by
  cases m with
  | nil => rfl
  | cons c m =>
    obtain ⟨a, v⟩ := c
    rw [Memory.wfFrom_cons] at hm ⊢
    exact ⟨h.trans hm.1, hm.2⟩

/-- Below the least listed address, memory reads as 0. -/
theorem Memory.read_below {lo a : Nat} {m : Memory} (hm : Memory.wfFrom lo m = true) (h : a < lo) : m.read a = 0#16 := by
  induction m generalizing lo with
  | nil => rfl
  | cons c m ih =>
    obtain ⟨b, v⟩ := c
    rw [Memory.wfFrom_cons] at hm
    have hb : ¬ b = a := by omega
    simp only [Memory.read, hb, if_false]
    exact ih hm.2.2.2 (by omega)

/-- A canonical memory reads as 0 outside 0..4095. -/
theorem Memory.read_outside {lo a : Nat} {m : Memory} (hm : Memory.wfFrom lo m = true) (h : Config.memWords ≤ a) :
    m.read a = 0#16 := by
  induction m generalizing lo with
  | nil => rfl
  | cons c m ih =>
    obtain ⟨b, v⟩ := c
    rw [Memory.wfFrom_cons] at hm
    have hb : ¬ b = a := by omega
    simp only [Memory.read, hb, if_false]
    exact ih hm.2.2.2

/-- Erasing an address makes it read as 0 and leaves every other address alone. -/
theorem Memory.read_erase (m : Memory) (a b : Nat) : (m.erase a).read b = if b = a then 0#16 else m.read b := by
  induction m with
  | nil => simp [Memory.erase]
  | cons c m ih =>
    obtain ⟨k, w⟩ := c
    by_cases hka : k = a
    · subst hka
      by_cases hkb : b = k
      · subst hkb; simpa [Memory.erase] using ih
      · simp [Memory.erase, ih, hkb, Memory.read, Ne.symm hkb]
    · by_cases hkb : k = b
      · subst hkb
        simp [Memory.erase, hka, Memory.read]
      · simp [Memory.erase, hka, Memory.read, hkb, ih]

/-- Inserting at an address that reads as 0 puts the word there and leaves every other address alone. -/
theorem Memory.read_insert {m : Memory} {a : Nat} (v : Word) (h : ∀ w, (a, w) ∉ m) (b : Nat) :
    (m.insert a v).read b = if b = a then v else m.read b := by
  induction m with
  | nil =>
    by_cases hb : b = a
    · simp [Memory.insert, Memory.read, hb]
    · simp [Memory.insert, Memory.read, hb, Ne.symm hb]
  | cons c m ih =>
    obtain ⟨k, w⟩ := c
    have hk : k ≠ a := fun e => h w (e ▸ List.mem_cons_self)
    have ih := ih (fun w' hw => h w' (List.mem_cons_of_mem _ hw))
    by_cases hak : a < k
    · by_cases hb : b = a
      · subst hb; simp [Memory.insert, hak, Memory.read]
      · simp [Memory.insert, hak, Memory.read, hb, Ne.symm hb]
    · by_cases hkb : k = b
      · subst hkb
        simp [Memory.insert, hak, Memory.read, hk]
      · simp [Memory.insert, hak, Memory.read, hkb, ih]

/-- An erased address is listed no more. -/
theorem Memory.not_mem_erase (m : Memory) (a : Nat) (w : Word) : (a, w) ∉ m.erase a := by
  induction m with
  | nil => simp [Memory.erase]
  | cons c m ih =>
    obtain ⟨k, u⟩ := c
    by_cases hka : k = a
    · simpa [Memory.erase, hka] using ih
    · simp [Memory.erase, hka, ih, Ne.symm hka]

/-- A read after a write (20_memory.md R63): the written word at the written address, every other address as before. -/
theorem Memory.read_write (m : Memory) (a b : Nat) (v : Word) :
    (m.write a v).read b = if b = a then v else m.read b := by
  by_cases hv : v = 0#16
  · simp [Memory.write, hv, Memory.read_erase]
  · simp only [Memory.write, hv, if_false, Memory.read_insert v (Memory.not_mem_erase m a), Memory.read_erase]
    by_cases hb : b = a <;> simp [hb]

@[simp] theorem Memory.read_write_same (m : Memory) (a : Nat) (v : Word) : (m.write a v).read a = v := by
  simp [Memory.read_write]

theorem Memory.read_write_ne (m : Memory) {a b : Nat} (h : b ≠ a) (v : Word) : (m.write a v).read b = m.read b := by
  simp [Memory.read_write, h]

/-- Erasing keeps the canonical form. -/
theorem Memory.wfFrom_erase {lo : Nat} {m : Memory} (hm : Memory.wfFrom lo m = true) (a : Nat) :
    Memory.wfFrom lo (m.erase a) = true := by
  induction m generalizing lo with
  | nil => rfl
  | cons c m ih =>
    obtain ⟨k, w⟩ := c
    have hc := Memory.wfFrom_cons.1 hm
    by_cases hka : k = a
    · simpa [Memory.erase, hka] using ih (Memory.wfFrom_mono (by omega) hc.2.2.2)
    · simp only [Memory.erase, hka, if_false]
      exact Memory.wfFrom_cons.2 ⟨hc.1, hc.2.1, hc.2.2.1, ih hc.2.2.2⟩

/-- Inserting a non-zero word at an existing address that is not listed keeps the canonical form. -/
theorem Memory.wfFrom_insert {lo : Nat} {m : Memory} (hm : Memory.wfFrom lo m = true) {a : Nat} (hlo : lo ≤ a)
    (ha : a < Config.memWords) {v : Word} (hv : v ≠ 0#16) (h : ∀ w, (a, w) ∉ m) :
    Memory.wfFrom lo (m.insert a v) = true := by
  induction m generalizing lo with
  | nil => exact Memory.wfFrom_cons.2 ⟨hlo, ha, hv, rfl⟩
  | cons c m ih =>
    obtain ⟨k, w⟩ := c
    have hc := Memory.wfFrom_cons.1 hm
    have hk : k ≠ a := fun e => h w (e ▸ List.mem_cons_self)
    by_cases hak : a < k
    · simp only [Memory.insert, hak, if_true]
      exact Memory.wfFrom_cons.2 ⟨hlo, ha, hv, Memory.wfFrom_cons.2 ⟨hak, hc.2⟩⟩
    · simp only [Memory.insert, hak, if_false]
      exact Memory.wfFrom_cons.2
        ⟨hc.1, hc.2.1, hc.2.2.1, ih hc.2.2.2 (by omega) (fun w' hw => h w' (List.mem_cons_of_mem _ hw))⟩

/-- Every write of an existing address keeps the canonical form. -/
theorem Memory.wf_write {m : Memory} (hm : m.wf = true) {a : Nat} (ha : a < Config.memWords) (v : Word) :
    (m.write a v).wf = true := by
  by_cases hv : v = 0#16
  · simpa [Memory.write, hv, Memory.wf] using Memory.wfFrom_erase hm a
  · simp only [Memory.write, hv, if_false, Memory.wf]
    exact Memory.wfFrom_insert (Memory.wfFrom_erase hm a) (Nat.zero_le a) ha hv (Memory.not_mem_erase m a)

/-- Loading a block keeps the canonical form. -/
theorem Memory.wf_writeWords {ws : List Word} {a : Nat} {m : Memory} (hm : m.wf = true)
    (ha : a + ws.length ≤ Config.memWords) : (writeWords ws a m).wf = true := by
  induction ws generalizing a m with
  | nil => exact hm
  | cons w ws ih =>
    simp only [List.length_cons] at ha
    exact ih (Memory.wf_write hm (by omega) w) (by omega)

/-- A word outside the loaded block reads as before, one inside reads as the block's word (20_memory.md R60). -/
theorem Memory.read_writeWords (ws : List Word) (a : Nat) (m : Memory) (b : Nat) :
    (writeWords ws a m).read b = if h : a ≤ b ∧ b - a < ws.length then ws[b - a]'h.2 else m.read b := by
  induction ws generalizing a m with
  | nil => simp [writeWords]
  | cons w ws ih =>
    rw [writeWords, ih, Memory.read_write]
    by_cases hb : b = a
    · subst hb; simp
    · by_cases hab : a + 1 ≤ b
      · have h1 : b - a = (b - (a + 1)) + 1 := by omega
        have h2 : a ≤ b := by omega
        simp only [h1, List.getElem_cons_succ, List.length_cons, Nat.add_lt_add_iff_right, h2, hab, true_and, hb, if_false]
      · have h2 : ¬ a ≤ b := by omega
        simp [hab, h2, hb]

end Sys2Proof.Machine
end

