-- ==== Sys2Proof/Laws/State.lean ====
section
/-! SUPPORT. One lemma per field per update of the state record, true by rfl, so that no later proof unfolds an update. -/

namespace Sys2Proof.Machine

variable (s : State)

@[simp] theorem State.setReg_acc (k : BitVec 4) (v : Word) : (s.setReg k v).acc = s.acc := rfl
@[simp] theorem State.setReg_pc (k : BitVec 4) (v : Word) : (s.setReg k v).pc = s.pc := rfl
@[simp] theorem State.setReg_ir (k : BitVec 4) (v : Word) : (s.setReg k v).ir = s.ir := rfl
@[simp] theorem State.setReg_regs (k : BitVec 4) (v : Word) : (s.setReg k v).regs = s.regs.set k.toNat v (k.isLt) := rfl
@[simp] theorem State.setReg_flags (k : BitVec 4) (v : Word) : (s.setReg k v).flags = s.flags := rfl
@[simp] theorem State.setReg_halted (k : BitVec 4) (v : Word) : (s.setReg k v).halted = s.halted := rfl
@[simp] theorem State.setReg_stepCount (k : BitVec 4) (v : Word) : (s.setReg k v).stepCount = s.stepCount := rfl
@[simp] theorem State.setReg_fault (k : BitVec 4) (v : Word) : (s.setReg k v).fault = s.fault := rfl
@[simp] theorem State.setReg_mem (k : BitVec 4) (v : Word) : (s.setReg k v).mem = s.mem := rfl

@[simp] theorem State.setAcc_acc (v : Word) : (s.setAcc v).acc = v := rfl
@[simp] theorem State.setAcc_pc (v : Word) : (s.setAcc v).pc = s.pc := rfl
@[simp] theorem State.setAcc_ir (v : Word) : (s.setAcc v).ir = s.ir := rfl
@[simp] theorem State.setAcc_regs (v : Word) : (s.setAcc v).regs = s.regs := rfl
@[simp] theorem State.setAcc_flags (v : Word) : (s.setAcc v).flags = s.flags := rfl
@[simp] theorem State.setAcc_halted (v : Word) : (s.setAcc v).halted = s.halted := rfl
@[simp] theorem State.setAcc_stepCount (v : Word) : (s.setAcc v).stepCount = s.stepCount := rfl
@[simp] theorem State.setAcc_fault (v : Word) : (s.setAcc v).fault = s.fault := rfl
@[simp] theorem State.setAcc_mem (v : Word) : (s.setAcc v).mem = s.mem := rfl

@[simp] theorem State.setFlags_acc (f : Flags) : (s.setFlags f).acc = s.acc := rfl
@[simp] theorem State.setFlags_pc (f : Flags) : (s.setFlags f).pc = s.pc := rfl
@[simp] theorem State.setFlags_ir (f : Flags) : (s.setFlags f).ir = s.ir := rfl
@[simp] theorem State.setFlags_regs (f : Flags) : (s.setFlags f).regs = s.regs := rfl
@[simp] theorem State.setFlags_flags (f : Flags) : (s.setFlags f).flags = f := rfl
@[simp] theorem State.setFlags_halted (f : Flags) : (s.setFlags f).halted = s.halted := rfl
@[simp] theorem State.setFlags_stepCount (f : Flags) : (s.setFlags f).stepCount = s.stepCount := rfl
@[simp] theorem State.setFlags_fault (f : Flags) : (s.setFlags f).fault = s.fault := rfl
@[simp] theorem State.setFlags_mem (f : Flags) : (s.setFlags f).mem = s.mem := rfl

@[simp] theorem State.loadIR_acc (w : Word) : (s.loadIR w).acc = s.acc := rfl
@[simp] theorem State.loadIR_pc (w : Word) : (s.loadIR w).pc = s.pc := rfl
@[simp] theorem State.loadIR_ir (w : Word) : (s.loadIR w).ir = w := rfl
@[simp] theorem State.loadIR_regs (w : Word) : (s.loadIR w).regs = s.regs := rfl
@[simp] theorem State.loadIR_flags (w : Word) : (s.loadIR w).flags = s.flags := rfl
@[simp] theorem State.loadIR_halted (w : Word) : (s.loadIR w).halted = s.halted := rfl
@[simp] theorem State.loadIR_stepCount (w : Word) : (s.loadIR w).stepCount = s.stepCount := rfl
@[simp] theorem State.loadIR_fault (w : Word) : (s.loadIR w).fault = s.fault := rfl
@[simp] theorem State.loadIR_mem (w : Word) : (s.loadIR w).mem = s.mem := rfl

@[simp] theorem State.retire_acc (next : Word) : (s.retire next).acc = s.acc := rfl
@[simp] theorem State.retire_pc (next : Word) : (s.retire next).pc = next := rfl
@[simp] theorem State.retire_ir (next : Word) : (s.retire next).ir = s.ir := rfl
@[simp] theorem State.retire_regs (next : Word) : (s.retire next).regs = s.regs := rfl
@[simp] theorem State.retire_flags (next : Word) : (s.retire next).flags = s.flags := rfl
@[simp] theorem State.retire_halted (next : Word) : (s.retire next).halted = s.halted := rfl
@[simp] theorem State.retire_stepCount (next : Word) : (s.retire next).stepCount = s.stepCount + 1 := rfl
@[simp] theorem State.retire_fault (next : Word) : (s.retire next).fault = s.fault := rfl
@[simp] theorem State.retire_mem (next : Word) : (s.retire next).mem = s.mem := rfl

@[simp] theorem State.raise_acc (r : FaultRecord) : (s.raise r).acc = s.acc := rfl
@[simp] theorem State.raise_pc (r : FaultRecord) : (s.raise r).pc = s.pc := rfl
@[simp] theorem State.raise_ir (r : FaultRecord) : (s.raise r).ir = s.ir := rfl
@[simp] theorem State.raise_regs (r : FaultRecord) : (s.raise r).regs = s.regs := rfl
@[simp] theorem State.raise_flags (r : FaultRecord) : (s.raise r).flags = s.flags := rfl
@[simp] theorem State.raise_halted (r : FaultRecord) : (s.raise r).halted = true := rfl
@[simp] theorem State.raise_stepCount (r : FaultRecord) : (s.raise r).stepCount = s.stepCount := rfl
@[simp] theorem State.raise_fault (r : FaultRecord) : (s.raise r).fault = some r := rfl
@[simp] theorem State.raise_mem (r : FaultRecord) : (s.raise r).mem = s.mem := rfl

@[simp] theorem softReset_acc : (softReset s).acc = State.reset.acc := rfl
@[simp] theorem softReset_pc : (softReset s).pc = State.reset.pc := rfl
@[simp] theorem softReset_ir : (softReset s).ir = State.reset.ir := rfl
@[simp] theorem softReset_regs : (softReset s).regs = State.reset.regs := rfl
@[simp] theorem softReset_flags : (softReset s).flags = State.reset.flags := rfl
@[simp] theorem softReset_halted : (softReset s).halted = State.reset.halted := rfl
@[simp] theorem softReset_stepCount : (softReset s).stepCount = State.reset.stepCount := rfl
@[simp] theorem softReset_fault : (softReset s).fault = State.reset.fault := rfl
@[simp] theorem softReset_mem : (softReset s).mem = s.mem := rfl

@[simp] theorem fullWipe_acc : (fullWipe s).acc = State.reset.acc := rfl
@[simp] theorem fullWipe_pc : (fullWipe s).pc = State.reset.pc := rfl
@[simp] theorem fullWipe_ir : (fullWipe s).ir = State.reset.ir := rfl
@[simp] theorem fullWipe_regs : (fullWipe s).regs = State.reset.regs := rfl
@[simp] theorem fullWipe_flags : (fullWipe s).flags = State.reset.flags := rfl
@[simp] theorem fullWipe_halted : (fullWipe s).halted = State.reset.halted := rfl
@[simp] theorem fullWipe_stepCount : (fullWipe s).stepCount = State.reset.stepCount := rfl
@[simp] theorem fullWipe_fault : (fullWipe s).fault = State.reset.fault := rfl
@[simp] theorem fullWipe_mem : (fullWipe s).mem = [] := rfl

@[simp] theorem State.nextPc_eq : s.nextPc = s.pc + 1 := rfl

/-- Two states with the same fields are the same state. -/
theorem State.ext_fields {s t : State} (h1 : s.acc = t.acc) (h2 : s.pc = t.pc) (h3 : s.ir = t.ir) (h4 : s.regs = t.regs)
    (h5 : s.flags = t.flags) (h6 : s.halted = t.halted) (h7 : s.stepCount = t.stepCount) (h8 : s.fault = t.fault)
    (h9 : s.mem = t.mem) : s = t := by
  cases s
  cases t
  simp_all

/-! ### Reading a register -/

@[simp] theorem State.getReg_setAcc (k : BitVec 4) (v : Word) : (s.setAcc v).getReg k = s.getReg k := rfl
@[simp] theorem State.getReg_setFlags (k : BitVec 4) (f : Flags) : (s.setFlags f).getReg k = s.getReg k := rfl
@[simp] theorem State.getReg_loadIR (k : BitVec 4) (w : Word) : (s.loadIR w).getReg k = s.getReg k := rfl
@[simp] theorem State.getReg_retire (k : BitVec 4) (p : Word) : (s.retire p).getReg k = s.getReg k := rfl
@[simp] theorem State.getReg_raise (k : BitVec 4) (r : FaultRecord) : (s.raise r).getReg k = s.getReg k := rfl

/-- A register read after a register write (10_state.md R26: no register is hardwired). -/
theorem State.getReg_setReg (j k : BitVec 4) (v : Word) :
    (s.setReg k v).getReg j = if j = k then v else s.getReg j := by
  simp [State.setReg, State.getReg, Vector.getElem_set, BitVec.toNat_inj, eq_comm]

@[simp] theorem State.getReg_setReg_same (k : BitVec 4) (v : Word) : (s.setReg k v).getReg k = v := by
  simp [State.getReg_setReg]

theorem State.getReg_setReg_ne {j k : BitVec 4} (h : j ≠ k) (v : Word) : (s.setReg k v).getReg j = s.getReg j := by
  simp [State.getReg_setReg, h]

end Sys2Proof.Machine
end

