-- ==== Sys2Proof/Laws/Ops.lean ====
section
/-! SUPPORT. One lemma per shared operation, saying once everything it can do, and the equations of operand resolution as
40_engine.md R191 and R192 write them. -/

namespace Sys2Proof.Machine

/-! ### Memory accesses -/

theorem inBounds_iff (a : Word) : inBounds a = true ↔ a.toNat < Config.memWords := by
  simp [inBounds]

/-- An 8-bit address always exists (20_memory.md R57). -/
theorem inBounds_setWidth8 (a : BitVec 8) : inBounds (a.setWidth 16) = true := by
  have := a.isLt
  simp only [inBounds, Config.memWords, BitVec.toNat_setWidth, decide_eq_true_eq]
  omega

theorem toNat_setWidth8 (a : BitVec 8) : (a.setWidth 16).toNat = a.toNat := by
  have := a.isLt
  simp only [BitVec.toNat_setWidth]
  omega

/-- Everything MemRead does (20_memory.md R53). -/
theorem memRead_eq (a : Word) (s : State) :
    memRead a s = if a.toNat < Config.memWords then .ok (s.mem.read a.toNat) else .error (.outOfBounds a) := by
  simp [memRead, inBounds]

/-- Everything MemWrite does (20_memory.md R54). -/
theorem memWrite_eq (a v : Word) (s : State) :
    memWrite a v s = if a.toNat < Config.memWords then .ok { s with mem := s.mem.write a.toNat v }
      else .error (.outOfBounds a) := by
  simp [memWrite, inBounds]

theorem memRead_byte (a : BitVec 8) (s : State) : memRead (a.setWidth 16) s = .ok (s.mem.read a.toNat) := by
  rw [memRead, inBounds_setWidth8, toNat_setWidth8]; rfl

theorem memWrite_byte (a : BitVec 8) (v : Word) (s : State) :
    memWrite (a.setWidth 16) v s = .ok { s with mem := s.mem.write a.toNat v } := by
  rw [memWrite, inBounds_setWidth8, toNat_setWidth8]; rfl

/-! ### The value of an operand (40_engine.md R191), line by line -/

theorem valueAt_direct (a : BitVec 8) (s : State) : valueAt (.direct a) s = .ok (s.mem.read a.toNat) :=
  memRead_byte a s

theorem valueAt_indirect (a : BitVec 8) (s : State) :
    valueAt (.indirect a) s = memRead (s.mem.read a.toNat) s := by
  simp only [valueAt, locate, memRead_byte]; rfl

theorem valueAt_immediate (n : BitVec 9) (s : State) : valueAt (.immediate n) s = .ok (n.setWidth 16) := rfl

theorem valueAt_register (k : BitVec 4) (s : State) : valueAt (.register k) s = .ok (s.getReg k) := rfl

theorem valueAt_registerIndirect (k : BitVec 4) (s : State) :
    valueAt (.registerIndirect k) s = memRead (s.getReg k) s := rfl

/-- A fault in reading an operand is an out-of-bounds access, never anything else (20_memory.md R53). -/
theorem valueAt_error {o : Operand} {s : State} {r : FaultRecord} (h : valueAt o s = .error r) :
    ∃ a : Word, ¬ a.toNat < Config.memWords ∧ r = .outOfBounds a := by
  have key : ∀ a : Word, memRead a s = .error r → ∃ a : Word, ¬ a.toNat < Config.memWords ∧ r = .outOfBounds a := by
    intro a ha
    rw [memRead_eq] at ha
    split at ha
    · cases ha
    · rename_i hb
      cases ha
      exact ⟨a, hb, rfl⟩
  cases o with
  | direct a => rw [valueAt_direct] at h; cases h
  | indirect a => rw [valueAt_indirect] at h; exact key _ h
  | immediate n => rw [valueAt_immediate] at h; cases h
  | register k => rw [valueAt_register] at h; cases h
  | registerIndirect k => rw [valueAt_registerIndirect] at h; exact key _ h

/-! ### The destination of a STORE (40_engine.md R192), line by line -/

theorem storeTo_direct (a : BitVec 8) (x : Word) (s : State) :
    storeTo (.direct a) x s = .ok { s with mem := s.mem.write a.toNat x } :=
  memWrite_byte a x s

theorem storeTo_indirect (a : BitVec 8) (x : Word) (s : State) :
    storeTo (.indirect a) x s = memWrite (s.mem.read a.toNat) x s := by
  simp only [storeTo, locate, memRead_byte]; rfl

theorem storeTo_immediate (n : BitVec 9) (x : Word) (s : State) :
    storeTo (.immediate n) x s = .error (.plain .illegalAddressingMode) := rfl

theorem storeTo_register (k : BitVec 4) (x : Word) (s : State) : storeTo (.register k) x s = .ok (s.setReg k x) := rfl

theorem storeTo_registerIndirect (k : BitVec 4) (x : Word) (s : State) :
    storeTo (.registerIndirect k) x s = memWrite (s.getReg k) x s := rfl

/-- All a STORE's destination write can do: one existing word of memory, or one register. -/
theorem storeTo_ok {o : Operand} {x : Word} {s t : State} (h : storeTo o x s = .ok t) :
    (∃ a : Nat, a < Config.memWords ∧ t = { s with mem := s.mem.write a x }) ∨
      ∃ k : BitVec 4, o = .register k ∧ t = s.setReg k x := by
  have key : ∀ a : Word, memWrite a x s = .ok t →
      ∃ b : Nat, b < Config.memWords ∧ t = { s with mem := s.mem.write b x } := by
    intro a ha
    rw [memWrite_eq] at ha
    split at ha
    · rename_i hb
      cases ha
      exact ⟨a.toNat, hb, rfl⟩
    · cases ha
  cases o with
  | direct a =>
    rw [storeTo_direct] at h
    cases h
    exact .inl ⟨a.toNat, Nat.lt_trans a.isLt (by decide), rfl⟩
  | indirect a => rw [storeTo_indirect] at h; exact .inl (key _ h)
  | immediate n => rw [storeTo_immediate] at h; cases h
  | register k => rw [storeTo_register] at h; cases h; exact .inr ⟨k, rfl, rfl⟩
  | registerIndirect k => rw [storeTo_registerIndirect] at h; exact .inl (key _ h)

/-! ### Executing one instruction -/

/-- `execute(op, mode, value)` of 40_engine.md R184 by opcode: the effects the nine families of meanings share. -/
def effectOf (op : Opcode) (o : Operand) (s : State) : Except FaultRecord State :=
  match op with
  | .halt => haltEffect s
  | .load => loadEffect o s
  | .store => storeEffect o s
  | .add => addEffect o s
  | .sub => subEffect o s
  | .cmp => cmpEffect o s
  | .jmp => jmpEffect o s
  | .jz => jzEffect o s
  | .jnz => jnzEffect o s

/-- Every arm of `exec` is `perform` on its opcode, its operand and that opcode's effect. -/
theorem exec_eq_perform (i : Instr) (s : State) :
    exec i s = perform i.op i.operand s (effectOf i.op i.operand s) := by
  cases i <;> rfl

theorem exec_of (op : Opcode) (o : Operand) (s : State) :
    exec (Instr.of op o) s = perform op o s (effectOf op o s) := by
  rw [exec_eq_perform, Instr.op_of, Instr.operand_of]

/-- All `perform` can answer: the effect's state, or the fault entry from the state before (60_exceptions.md R242). -/
theorem perform_cases (op : Opcode) (o : Operand) (s : State) (e : Except FaultRecord State) :
    (∃ t, legalMode op o.mode = true ∧ e = .ok t ∧ perform op o s e = .next t) ∨
      (∃ r, legalMode op o.mode = true ∧ e = .error r ∧ perform op o s e = .next (s.raise r)) ∨
      (legalMode op o.mode = false ∧ perform op o s e = .next (s.raise (.plain .illegalAddressingMode))) := by
  unfold perform
  cases hl : legalMode op o.mode with
  | false => exact .inr (.inr ⟨rfl, rfl⟩)
  | true =>
    cases e with
    | ok t => exact .inl ⟨t, rfl, rfl, rfl⟩
    | error r => exact .inr (.inl ⟨r, rfl, rfl, rfl⟩)

/-- The bind of a computation that may fault, taken apart. -/
theorem bind_ok {α β : Type} {e : Except FaultRecord α} {f : α → Except FaultRecord β} {b : β}
    (h : (e >>= f) = .ok b) : ∃ a, e = .ok a ∧ f a = .ok b := by
  cases e with
  | error r => cases h
  | ok a => exact ⟨a, rfl, h⟩

theorem bind_error {α β : Type} {e : Except FaultRecord α} {f : α → Except FaultRecord β} {r : FaultRecord}
    (h : (e >>= f) = .error r) : e = .error r ∨ ∃ a, e = .ok a ∧ f a = .error r := by
  cases e with
  | error r' => cases h; exact .inl rfl
  | ok a => exact .inr ⟨a, rfl, h⟩

/-! ### What `exec` can do -/

/-- If `exec` answers a next state, that state is the fault entry from the state before (60_exceptions.md R242), or the
instruction's mode is legal and its effect gave it. -/
theorem exec_cases {i : Instr} {s t : State} (h : exec i s = .next t) :
    (∃ r, t = s.raise r) ∨ (i.wellFormed = true ∧ effectOf i.op i.operand s = .ok t) := by
  rw [exec_eq_perform] at h
  rcases perform_cases i.op i.operand s (effectOf i.op i.operand s) with ⟨u, hl, he, h'⟩ | ⟨r, -, -, h'⟩ | ⟨-, h'⟩ <;> rw [h'] at h <;> cases h
  · exact .inr ⟨hl, he⟩
  · exact .inl ⟨_, rfl⟩
  · exact .inl ⟨_, rfl⟩

/-- An effect that completes is one counted step, and touches neither IR nor the fault latch (10_state.md R25, R31, R32). -/
theorem effectOf_ok {op : Opcode} {o : Operand} {s t : State} (h : effectOf op o s = .ok t) : t.stepCount = s.stepCount + 1 ∧ t.ir = s.ir ∧ t.fault = s.fault := by
  cases op <;> simp only [effectOf] at h
  case halt => cases h; exact ⟨rfl, rfl, rfl⟩
  case load => obtain ⟨v, hv, h⟩ := bind_ok h; cases h; exact ⟨rfl, rfl, rfl⟩
  case store =>
    obtain ⟨u, hv, h⟩ := bind_ok h; cases h
    rcases storeTo_ok hv with ⟨a, _, rfl⟩ | ⟨k, _, rfl⟩ <;> exact ⟨rfl, rfl, rfl⟩
  case add => obtain ⟨v, hv, h⟩ := bind_ok h; cases h; exact ⟨rfl, rfl, rfl⟩
  case sub => obtain ⟨v, hv, h⟩ := bind_ok h; cases h; exact ⟨rfl, rfl, rfl⟩
  case cmp => obtain ⟨v, hv, h⟩ := bind_ok h; cases h; exact ⟨rfl, rfl, rfl⟩
  all_goals obtain ⟨v, hv, h⟩ := bind_ok h; cases h; exact ⟨rfl, rfl, rfl⟩

/-- A jump target is the direct-mode value (43_control.md R230). -/
theorem jumpTarget_ok {o : Operand} {a : Word} (h : jumpTarget o = .ok a) : a = BitVec.ofNat 16 o.value := by
  cases o <;> simp [jumpTarget] at h
  subst h; simp [Operand.value]

/-- A completed destination write with its place: the located word of memory, or the named register (40_engine.md R192). -/
theorem storeTo_locate {o : Operand} {x : Word} {s t : State} (h : storeTo o x s = .ok t) :
    (∃ a : Word, locate o s = .ok (.memory a) ∧ t = { s with mem := s.mem.write a.toNat x }) ∨
      ∃ k : BitVec 4, o = .register k ∧ t = s.setReg k x := by
  obtain ⟨p, hp, h⟩ := bind_ok h
  cases p with
  | memory a =>
    left
    simp only [writePlace] at h
    rw [memWrite_eq] at h
    split at h
    · cases h; exact ⟨a, hp, rfl⟩
    · cases h
  | register k =>
    right
    cases o <;> simp only [locate, memRead_byte] at hp <;> cases hp
    cases h
    exact ⟨_, rfl, rfl⟩
  | literal v => cases h

/-- All a step can do (40_engine.md R184), guards included. -/
theorem step_cases (s : State) :
    (s.halted = true ∧ step s = .refused .halted) ∨
      (s.halted = false ∧ ¬ s.pc.toNat < Config.memWords ∧ step s = .next (s.raise (.plain .pcOutOfBounds))) ∨
      (∃ why, s.halted = false ∧ s.pc.toNat < Config.memWords ∧ decode (s.mem.read s.pc.toNat) = .invalid why ∧
        step s = .next ((s.loadIR (s.mem.read s.pc.toNat)).raise (undecodable why))) ∨
      (∃ i, s.halted = false ∧ s.pc.toNat < Config.memWords ∧ decode (s.mem.read s.pc.toNat) = .valid i ∧
        step s = exec i (s.loadIR (s.mem.read s.pc.toNat))) := by
  unfold step State.fetch
  cases hh : s.halted with
  | true => exact .inl ⟨rfl, rfl⟩
  | false =>
    by_cases hp : s.pc.toNat < Config.memWords
    · have hb : s.pcOutOfBounds = false := by simp [State.pcOutOfBounds, inBounds, hp]
      rw [hb]
      cases hd : decode (s.mem.read s.pc.toNat) with
      | invalid why => exact .inr (.inr (.inl ⟨why, rfl, hp, rfl, rfl⟩))
      | valid i => exact .inr (.inr (.inr ⟨i, rfl, hp, rfl, rfl⟩))
    · have hb : s.pcOutOfBounds = true := by simp [State.pcOutOfBounds, inBounds, hp]
      rw [hb]
      exact .inr (.inl ⟨rfl, hp, rfl⟩)

end Sys2Proof.Machine
end

