-- ==== Sys2Proof/Laws/PerInstr.lean ====
section
/-! SUPPORT. Statements about every instruction as text for the codec, one lemma per constructor. -/

namespace Sys2Proof.Laws

/-- The word of an instruction, as a number, is its opcode in bits 15:12 and, in bits 11:0, its mode's offset plus its value
(30_encoding.md R80, R84, R88). -/
def EncodeLayout.Statement (i : Instr) : Prop :=
  (encode i).toNat = i.op.code * 4096 + (i.operand.mode.offset + i.operand.value)

/-- The general step of every case: no opcode and no operand falls outside `packWord_toNat`. -/
theorem EncodeLayout.general (i : Instr) : EncodeLayout.Statement i :=
  packWord_toNat (Nat.lt_of_le_of_lt (Opcode.code_le _) (by decide)) (Operand.value_lt _)

theorem EncodeLayout.haltDirect (x : BitVec 8) : EncodeLayout.Statement (.haltDirect x) := EncodeLayout.general _
theorem EncodeLayout.haltIndirect (x : BitVec 8) : EncodeLayout.Statement (.haltIndirect x) := EncodeLayout.general _
theorem EncodeLayout.haltImmediate (x : BitVec 9) : EncodeLayout.Statement (.haltImmediate x) := EncodeLayout.general _
theorem EncodeLayout.haltRegister (x : BitVec 4) : EncodeLayout.Statement (.haltRegister x) := EncodeLayout.general _
theorem EncodeLayout.haltRegisterIndirect (x : BitVec 4) : EncodeLayout.Statement (.haltRegisterIndirect x) := EncodeLayout.general _
theorem EncodeLayout.loadDirect (x : BitVec 8) : EncodeLayout.Statement (.loadDirect x) := EncodeLayout.general _
theorem EncodeLayout.loadIndirect (x : BitVec 8) : EncodeLayout.Statement (.loadIndirect x) := EncodeLayout.general _
theorem EncodeLayout.loadImmediate (x : BitVec 9) : EncodeLayout.Statement (.loadImmediate x) := EncodeLayout.general _
theorem EncodeLayout.loadRegister (x : BitVec 4) : EncodeLayout.Statement (.loadRegister x) := EncodeLayout.general _
theorem EncodeLayout.loadRegisterIndirect (x : BitVec 4) : EncodeLayout.Statement (.loadRegisterIndirect x) := EncodeLayout.general _
theorem EncodeLayout.storeDirect (x : BitVec 8) : EncodeLayout.Statement (.storeDirect x) := EncodeLayout.general _
theorem EncodeLayout.storeIndirect (x : BitVec 8) : EncodeLayout.Statement (.storeIndirect x) := EncodeLayout.general _
theorem EncodeLayout.storeImmediate (x : BitVec 9) : EncodeLayout.Statement (.storeImmediate x) := EncodeLayout.general _
theorem EncodeLayout.storeRegister (x : BitVec 4) : EncodeLayout.Statement (.storeRegister x) := EncodeLayout.general _
theorem EncodeLayout.storeRegisterIndirect (x : BitVec 4) : EncodeLayout.Statement (.storeRegisterIndirect x) := EncodeLayout.general _
theorem EncodeLayout.addDirect (x : BitVec 8) : EncodeLayout.Statement (.addDirect x) := EncodeLayout.general _
theorem EncodeLayout.addIndirect (x : BitVec 8) : EncodeLayout.Statement (.addIndirect x) := EncodeLayout.general _
theorem EncodeLayout.addImmediate (x : BitVec 9) : EncodeLayout.Statement (.addImmediate x) := EncodeLayout.general _
theorem EncodeLayout.addRegister (x : BitVec 4) : EncodeLayout.Statement (.addRegister x) := EncodeLayout.general _
theorem EncodeLayout.addRegisterIndirect (x : BitVec 4) : EncodeLayout.Statement (.addRegisterIndirect x) := EncodeLayout.general _
theorem EncodeLayout.subDirect (x : BitVec 8) : EncodeLayout.Statement (.subDirect x) := EncodeLayout.general _
theorem EncodeLayout.subIndirect (x : BitVec 8) : EncodeLayout.Statement (.subIndirect x) := EncodeLayout.general _
theorem EncodeLayout.subImmediate (x : BitVec 9) : EncodeLayout.Statement (.subImmediate x) := EncodeLayout.general _
theorem EncodeLayout.subRegister (x : BitVec 4) : EncodeLayout.Statement (.subRegister x) := EncodeLayout.general _
theorem EncodeLayout.subRegisterIndirect (x : BitVec 4) : EncodeLayout.Statement (.subRegisterIndirect x) := EncodeLayout.general _
theorem EncodeLayout.cmpDirect (x : BitVec 8) : EncodeLayout.Statement (.cmpDirect x) := EncodeLayout.general _
theorem EncodeLayout.cmpIndirect (x : BitVec 8) : EncodeLayout.Statement (.cmpIndirect x) := EncodeLayout.general _
theorem EncodeLayout.cmpImmediate (x : BitVec 9) : EncodeLayout.Statement (.cmpImmediate x) := EncodeLayout.general _
theorem EncodeLayout.cmpRegister (x : BitVec 4) : EncodeLayout.Statement (.cmpRegister x) := EncodeLayout.general _
theorem EncodeLayout.cmpRegisterIndirect (x : BitVec 4) : EncodeLayout.Statement (.cmpRegisterIndirect x) := EncodeLayout.general _
theorem EncodeLayout.jmpDirect (x : BitVec 8) : EncodeLayout.Statement (.jmpDirect x) := EncodeLayout.general _
theorem EncodeLayout.jmpIndirect (x : BitVec 8) : EncodeLayout.Statement (.jmpIndirect x) := EncodeLayout.general _
theorem EncodeLayout.jmpImmediate (x : BitVec 9) : EncodeLayout.Statement (.jmpImmediate x) := EncodeLayout.general _
theorem EncodeLayout.jmpRegister (x : BitVec 4) : EncodeLayout.Statement (.jmpRegister x) := EncodeLayout.general _
theorem EncodeLayout.jmpRegisterIndirect (x : BitVec 4) : EncodeLayout.Statement (.jmpRegisterIndirect x) := EncodeLayout.general _
theorem EncodeLayout.jzDirect (x : BitVec 8) : EncodeLayout.Statement (.jzDirect x) := EncodeLayout.general _
theorem EncodeLayout.jzIndirect (x : BitVec 8) : EncodeLayout.Statement (.jzIndirect x) := EncodeLayout.general _
theorem EncodeLayout.jzImmediate (x : BitVec 9) : EncodeLayout.Statement (.jzImmediate x) := EncodeLayout.general _
theorem EncodeLayout.jzRegister (x : BitVec 4) : EncodeLayout.Statement (.jzRegister x) := EncodeLayout.general _
theorem EncodeLayout.jzRegisterIndirect (x : BitVec 4) : EncodeLayout.Statement (.jzRegisterIndirect x) := EncodeLayout.general _
theorem EncodeLayout.jnzDirect (x : BitVec 8) : EncodeLayout.Statement (.jnzDirect x) := EncodeLayout.general _
theorem EncodeLayout.jnzIndirect (x : BitVec 8) : EncodeLayout.Statement (.jnzIndirect x) := EncodeLayout.general _
theorem EncodeLayout.jnzImmediate (x : BitVec 9) : EncodeLayout.Statement (.jnzImmediate x) := EncodeLayout.general _
theorem EncodeLayout.jnzRegister (x : BitVec 4) : EncodeLayout.Statement (.jnzRegister x) := EncodeLayout.general _
theorem EncodeLayout.jnzRegisterIndirect (x : BitVec 4) : EncodeLayout.Statement (.jnzRegisterIndirect x) := EncodeLayout.general _

end Sys2Proof.Laws
end

