-- ==== Sys2Proof/Tests/Slice0.lean ====
section
/-! SUPPORT. The model's own tests. Expected values come from the spec: the encoding rows of opcode_table.json, the vectors of
95_test_vectors.md (named V-… and W… in the docstrings), or the rule a docstring names. A theorem test_witness_<Name> shows
concrete values that meet all hypotheses of the statement Obligations.<Name>. -/

namespace Sys2Proof.Tests

open Sys2Proof.Machine Sys2Proof.Claims

/-! ### Helpers -/

/-- The machine after construction, with memory contents. -/
def booted (cells : Memory) : State :=
  { State.reset with mem := cells }

/-- The machine after construction with one register set and one word at address 0. -/
def withReg (k : BitVec 4) (v w : Word) : State :=
  ({ State.reset with mem := State.reset.mem.write 0 w }).setReg k v

/-- ACC and the flags after one step of the word `w` at 0, with ACC = `acc` and R1 = `v` before. -/
def arith (w acc v : Word) : Word × Flags :=
  let t := stepped ((withReg 1 v w).setAcc acc)
  (t.acc, t.flags)

/-- The flags of the vectors, in the order ZF SF CF OF. -/
def fl (zf sf cf of : Bool) : Flags :=
  ⟨zf, sf, cf, of⟩

/-- The words a source assembles to. -/
def wordsOf (src : String) : Option (List Word) :=
  match assemble src.toList with
  | .ok rs => some (rs.map AssembledInstruction.word)
  | .error _ => none

/-- The errors a source gives. -/
def errorsOf (src : String) : List (Nat × LineErrorKind) :=
  match assemble src.toList with
  | .ok _ => []
  | .error e => e.errors.map fun x => (x.line, x.kind)

/-- The next state of a meaning. -/
def after (i : Instr) (s : State) : State :=
  match exec i s with
  | .next t => t
  | .fault _ => s
  | .refused _ => s

/-- The state fetches: not halted, and PC at most 4095. -/
def fetches (s : State) : Bool :=
  !s.halted && decide (s.pc.toNat ≤ 4095)

/-! ### Well-formedness refuses -/

/-- Opcode 9 (30_encoding.md R82). -/
theorem test_wf_opcode : tripleWellFormed 9 .direct 0 = false ∧ tripleWellFormed 8 .direct 0 = true := by decide

/-- A negative value (R88). -/
theorem test_wf_negative : tripleWellFormed 1 .immediate (-1) = false := by decide

/-- One past each mode's range, and its last value (R84, R87). -/
theorem test_wf_ranges :
    tripleWellFormed 1 .direct 256 = false ∧ tripleWellFormed 1 .direct 255 = true ∧
    tripleWellFormed 1 .indirect 256 = false ∧ tripleWellFormed 1 .indirect 255 = true ∧
    tripleWellFormed 1 .immediate 512 = false ∧ tripleWellFormed 1 .immediate 511 = true ∧
    tripleWellFormed 1 .register 16 = false ∧ tripleWellFormed 1 .register 15 = true ∧
    tripleWellFormed 1 .registerIndirect 16 = false ∧ tripleWellFormed 1 .registerIndirect 15 = true := by decide

/-- STORE immediate and the jumps that are not direct (40_engine.md R193). -/
theorem test_wf_modes :
    Instr.wellFormed (.storeImmediate 5) = false ∧ Instr.wellFormed (.jmpIndirect 5) = false ∧
    Instr.wellFormed (.jmpImmediate 5) = false ∧ Instr.wellFormed (.jzRegister 5) = false ∧
    Instr.wellFormed (.jnzRegisterIndirect 5) = false ∧ Instr.wellFormed (.jnzDirect 5) = true ∧
    Instr.wellFormed (.haltImmediate 5) = true := by decide

/-- HALT with an operand field other than 0, and an illegal mode, are not canonical (R95). -/
theorem test_wf_canonical :
    Instr.canonical (.haltDirect 5) = false ∧ Instr.canonical (.haltRegister 0) = false ∧
    Instr.canonical (.jmpRegister 1) = false ∧ Instr.canonical (.haltDirect 0) = true := by decide

/-! ### Decoding, one word for every constructor, bit by bit from the `encoding` rows of opcode_table.json -/

theorem test_decode_halt :
    decode 0b0000000010100101 = .valid (.haltDirect 0b10100101) ∧
    decode 0b0000000101011010 = .valid (.haltIndirect 0b01011010) ∧
    decode 0b0000001111000011 = .valid (.haltImmediate 0b111000011) ∧
    decode 0b0000010000001011 = .valid (.haltRegister 0b1011) ∧
    decode 0b0000010000010110 = .valid (.haltRegisterIndirect 0b0110) := by decide

theorem test_decode_load :
    decode 0b0001000010101100 = .valid (.loadDirect 0b10101100) ∧
    decode 0b0001000101011111 = .valid (.loadIndirect 0b01011111) ∧
    decode 0b0001001110111010 = .valid (.loadImmediate 0b110111010) ∧
    decode 0b0001010000001100 = .valid (.loadRegister 0b1100) ∧
    decode 0b0001010000011001 = .valid (.loadRegisterIndirect 0b1001) := by decide

theorem test_decode_store :
    decode 0b0010000010110011 = .valid (.storeDirect 0b10110011) ∧
    decode 0b0010000101100100 = .valid (.storeIndirect 0b01100100) ∧
    decode 0b0010001110110001 = .valid (.storeImmediate 0b110110001) ∧
    decode 0b0010010000001101 = .valid (.storeRegister 0b1101) ∧
    decode 0b0010010000011100 = .valid (.storeRegisterIndirect 0b1100) := by decide

theorem test_decode_add :
    decode 0b0011000010111010 = .valid (.addDirect 0b10111010) ∧
    decode 0b0011000101101001 = .valid (.addIndirect 0b01101001) ∧
    decode 0b0011001110101000 = .valid (.addImmediate 0b110101000) ∧
    decode 0b0011010000001110 = .valid (.addRegister 0b1110) ∧
    decode 0b0011010000011111 = .valid (.addRegisterIndirect 0b1111) := by decide

theorem test_decode_sub :
    decode 0b0100000011000001 = .valid (.subDirect 0b11000001) ∧
    decode 0b0100000101101110 = .valid (.subIndirect 0b01101110) ∧
    decode 0b0100001110011111 = .valid (.subImmediate 0b110011111) ∧
    decode 0b0100010000001111 = .valid (.subRegister 0b1111) ∧
    decode 0b0100010000010010 = .valid (.subRegisterIndirect 0b0010) := by decide

theorem test_decode_cmp :
    decode 0b0101000011001000 = .valid (.cmpDirect 0b11001000) ∧
    decode 0b0101000101110011 = .valid (.cmpIndirect 0b01110011) ∧
    decode 0b0101001110010110 = .valid (.cmpImmediate 0b110010110) ∧
    decode 0b0101010000000000 = .valid (.cmpRegister 0b0000) ∧
    decode 0b0101010000010101 = .valid (.cmpRegisterIndirect 0b0101) := by decide

theorem test_decode_jmp :
    decode 0b0110000011001111 = .valid (.jmpDirect 0b11001111) ∧
    decode 0b0110000101111000 = .valid (.jmpIndirect 0b01111000) ∧
    decode 0b0110001110001101 = .valid (.jmpImmediate 0b110001101) ∧
    decode 0b0110010000000001 = .valid (.jmpRegister 0b0001) ∧
    decode 0b0110010000011000 = .valid (.jmpRegisterIndirect 0b1000) := by decide

theorem test_decode_jz :
    decode 0b0111000011010110 = .valid (.jzDirect 0b11010110) ∧
    decode 0b0111000101111101 = .valid (.jzIndirect 0b01111101) ∧
    decode 0b0111001110000100 = .valid (.jzImmediate 0b110000100) ∧
    decode 0b0111010000000010 = .valid (.jzRegister 0b0010) ∧
    decode 0b0111010000011011 = .valid (.jzRegisterIndirect 0b1011) := by decide

theorem test_decode_jnz :
    decode 0b1000000011011101 = .valid (.jnzDirect 0b11011101) ∧
    decode 0b1000000110000010 = .valid (.jnzIndirect 0b10000010) ∧
    decode 0b1000001101111011 = .valid (.jnzImmediate 0b101111011) ∧
    decode 0b1000010000000011 = .valid (.jnzRegister 0b0011) ∧
    decode 0b1000010000011110 = .valid (.jnzRegisterIndirect 0b1110) := by decide

/-- Section 2.2: the reserved operands and the undefined opcodes, the opcode checked first. -/
theorem test_decode_invalid :
    decode 0x0420 = .invalid .reservedOperand ∧ decode 0x0FFF = .invalid .reservedOperand ∧
    decode 0x8FFF = .invalid .reservedOperand ∧ decode 0x9000 = .invalid .unknownOpcode ∧
    decode 0x9420 = .invalid .unknownOpcode ∧ decode 0xFFFF = .invalid .unknownOpcode := by decide

/-- Section 2.1: the ends of every range. -/
theorem test_encode_ranges :
    encode (.loadDirect 0) = 0x1000 ∧ encode (.loadDirect 255) = 0x10FF ∧
    encode (.loadIndirect 0) = 0x1100 ∧ encode (.loadIndirect 255) = 0x11FF ∧
    encode (.loadImmediate 0) = 0x1200 ∧ encode (.loadImmediate 511) = 0x13FF ∧
    encode (.loadRegister 0) = 0x1400 ∧ encode (.loadRegister 15) = 0x140F ∧
    encode (.loadRegisterIndirect 0) = 0x1410 ∧ encode (.loadRegisterIndirect 15) = 0x141F ∧
    encode (.haltDirect 0) = 0x0000 ∧ encode (.jnzRegisterIndirect 15) = 0x841F := by decide

/-- Section 2.1: raw triples, the refused ones too. -/
theorem test_encode_triples :
    encodeTriple 2 .immediate 5 = .ok 0x2205 ∧ encodeTriple 6 .indirect 5 = .ok 0x6105 ∧
    encodeTriple 9 .direct 0 = .error .unknownOpcode ∧ encodeTriple 1 .direct 256 = .error .valueOutOfRange ∧
    encodeTriple 1 .immediate 512 = .error .valueOutOfRange ∧ encodeTriple 1 .register 16 = .error .valueOutOfRange ∧
    encodeTriple 1 .direct (-1) = .error .valueOutOfRange := by decide

/-- 30_encoding.md R89: either letter case, and a name that is none. -/
theorem test_encode_mnemonic :
    encodeMnemonic "load".toList .immediate 100 = .ok 0x1264 ∧ encodeMnemonic "jNz".toList .direct 3 = .ok 0x8003 ∧
    encodeMnemonic "FOO".toList .direct 3 = .error .unknownMnemonic := by decide

/-- Section 2.2: the disassembly texts. -/
theorem test_disassemble :
    disassemble 0x0000 = "HALT".toList ∧ disassemble 0x0005 = "HALT 5".toList ∧
    disassemble 0x041F = "HALT (R15)".toList ∧ disassemble 0x0420 = "UNKNOWN".toList ∧
    disassemble 0x1264 = "LOAD #100".toList ∧ disassemble 0x20C8 = "STORE 200".toList ∧
    disassemble 0x3403 = "ADD R3".toList ∧ disassemble 0x6105 = "JMP (5)".toList ∧
    disassemble 0x9000 = "UNKNOWN".toList := by decide

/-! ### The host's two questions -/

theorem test_table_word : decodeTableWord 16 0x1264 = some (.loadImmediate 100) ∧ decodeTableWord 16 0x0420 = none := by
  decide

/-- The placed word is the one the next step runs, at 0 after reset, and where the state would not fetch. -/
theorem test_fetch_word :
    (stepped (State.reset.withFetchWord 16 0x1264)).acc = 100 ∧
    (stepped ({ State.reset with pc := 4096, halted := true }.withFetchWord 16 0x1207)).acc = 7 := by decide

/-! ### One step: data transfer (section 2.4) -/

/-- V-L1 to V-L5: the flags of LOAD, by decision D11. -/
theorem test_load_register_flags :
    (stepped (withReg 2 0 0x1402)).flags = fl true false false false ∧
    (stepped (withReg 2 1 0x1402)).flags = fl false false false false ∧
    (stepped (withReg 2 0x7FFF 0x1402)).flags = fl false false false false ∧
    (stepped (withReg 2 0x8000 0x1402)).flags = fl false true false true ∧
    (stepped (withReg 2 0xFFFF 0x1402)).acc = 0xFFFF := by decide

/-- V-L6. -/
theorem test_load_indirect :
    (stepped (booted [(0, 0x1105), (5, 300), (300, 7)])).acc = 7 ∧
    (stepped (booted [(0, 0x1105), (5, 300), (300, 7)])).pc = 1 := by decide

/-- V-L7: the pointer 4096 is the first address out of bounds. -/
theorem test_load_indirect_faults :
    stepped (booted [(0, 0x1105), (5, 4096)]) = { booted [(0, 0x1105), (5, 4096)] with
      ir := 0x1105, halted := true, fault := some ⟨.memoryOutOfBounds, some 4096⟩ } := by decide

/-- V-L8 and V-L9. -/
theorem test_load_register_indirect :
    (stepped ((booted [(0, 0x1412), (4000, 9)]).setReg 2 4000)).acc = 9 ∧
    (stepped ((booted [(0, 0x1412)]).setReg 2 5000)).fault = some ⟨.memoryOutOfBounds, some 5000⟩ := by decide

/-- V-L10, and a direct read of the last direct address. -/
theorem test_load_immediate_direct :
    (stepped (booted [(0, 0x13FF)])).acc = 511 ∧ (stepped (booted [(0, 0x10FF), (255, 6)])).acc = 6 := by decide

/-- V-S1 and V-S2. -/
theorem test_store_indirect :
    ((stepped ((booted [(0, 0x2105), (5, 1000)]).setAcc 77)).mem.read 1000) = 77 ∧
    (stepped ((booted [(0, 0x2105), (5, 65535)]).setAcc 77)).mem = [(0, 0x2105), (5, 65535)] ∧
    stepReturn ((booted [(0, 0x2105), (5, 65535)]).setAcc 77) = .fault .memoryOutOfBounds := by decide

/-- V-S3. -/
theorem test_store_immediate :
    stepReturn ((booted [(0, 0x2205)]).setAcc 77) = .fault .illegalAddressingMode ∧
    (stepped ((booted [(0, 0x2205)]).setAcc 77)).mem = [(0, 0x2205)] := by decide

/-- V-S4 and R0, a register like any other (10_state.md R26). -/
theorem test_store_register :
    (stepped ((booted [(0, 0x2403)]).setAcc 77)).getReg 3 = 77 ∧
    (stepped ((booted [(0, 0x2400)]).setAcc 78)).getReg 0 = 78 := by decide

/-- V-S5: the last word of memory. -/
theorem test_store_register_indirect :
    (stepped (((booted [(0, 0x2413)]).setAcc 77).setReg 3 4095)).mem = [(0, 0x2413), (4095, 77)] := by decide

/-- V-S6: STORE touches no flag. -/
theorem test_store_direct :
    (stepped (((booted [(0, 0x2009)]).setAcc 77).setFlags (fl true false false false))).flags = fl true false false false ∧
    (stepped (((booted [(0, 0x2009)]).setAcc 77).setFlags (fl true false false false))).mem.read 9 = 77 := by decide

/-! ### One step: arithmetic (section 2.3) -/

/-- V-A1 to V-A8. -/
theorem test_add_register :
    arith 0x3401 1 1 = (2, fl false false false false) ∧
    arith 0x3401 0 0 = (0, fl true false false false) ∧
    arith 0x3401 0xffff 1 = (0, fl true false true true) ∧
    arith 0x3401 0x7fff 1 = (0x8000, fl false true false true) ∧
    arith 0x3401 0x4000 0x4000 = (0x8000, fl false true false true) ∧
    arith 0x3401 0xffff 0xffff = (0xfffe, fl false true true true) ∧
    arith 0x3401 0x8000 0x8000 = (0, fl true false true true) ∧
    arith 0x3401 100 50 = (150, fl false false false false) := by decide

/-- V-A9 to V-A15. -/
theorem test_sub_register :
    arith 0x4401 0 1 = (0xffff, fl false true true false) ∧
    arith 0x4401 5 5 = (0, fl true false false false) ∧
    arith 0x4401 0x8000 1 = (0x7fff, fl false false false false) ∧
    arith 0x4401 0 0xffff = (1, fl false false true true) ∧
    arith 0x4401 0xffff 0 = (0xffff, fl false true false true) ∧
    arith 0x4401 150 25 = (125, fl false false false false) ∧
    arith 0x4401 0x7fff 0xffff = (0x8000, fl false true true false) := by decide

/-- V-A16 to V-A19. -/
theorem test_cmp_register :
    arith 0x5401 7 7 = (7, fl true false false false) ∧
    arith 0x5401 3 5 = (3, fl false true true false) ∧
    arith 0x5401 5 3 = (5, fl false false false false) ∧
    arith 0x5401 0 0xffff = (0, fl false false true true) := by decide

/-- The other modes, from ACC = 10: a word of memory 5, a pointed word 4, the literal 8, a register-indirect word 3. -/
theorem test_add_modes :
    (stepped ((booted [(0, 0x3009), (9, 5)]).setAcc 10)).acc = 15 ∧
    (stepped ((booted [(0, 0x3109), (9, 4095), (4095, 4)]).setAcc 10)).acc = 14 ∧
    (stepped ((booted [(0, 0x3208)]).setAcc 10)).acc = 18 ∧
    (stepped (((booted [(0, 0x341F), (4095, 3)]).setAcc 10).setReg 15 4095)).acc = 13 := by decide

/-- The other modes, from ACC = 10: a word of memory 5, a pointed word 4, the literal 8, a register-indirect word 3. -/
theorem test_sub_modes :
    (stepped ((booted [(0, 0x4009), (9, 5)]).setAcc 10)).acc = 5 ∧
    (stepped ((booted [(0, 0x4109), (9, 4095), (4095, 4)]).setAcc 10)).acc = 6 ∧
    (stepped ((booted [(0, 0x4208)]).setAcc 10)).acc = 2 ∧
    (stepped (((booted [(0, 0x441F), (4095, 3)]).setAcc 10).setReg 15 4095)).acc = 7 := by decide

/-- The other modes, each comparing 10 with 10: equal, and ACC kept. -/
theorem test_cmp_modes :
    (stepped ((booted [(0, 0x5009), (9, 10)]).setAcc 10)).flags = fl true false false false ∧
    (stepped ((booted [(0, 0x5109), (9, 4095), (4095, 10)]).setAcc 10)).flags = fl true false false false ∧
    (stepped ((booted [(0, 0x520A)]).setAcc 10)).flags = fl true false false false ∧
    (stepped (((booted [(0, 0x541F), (4095, 10)]).setAcc 10).setReg 15 4095)).flags = fl true false false false ∧
    (stepped ((booted [(0, 0x520A)]).setAcc 10)).acc = 10 := by decide

/-- The congruence that defines truncation holds of a negative result (00_scope.md R11). -/
theorem test_truncation : (0xFFFF : Word) = trunc16 (-1) ∧ (65536 : Int) ∣ -1 - (0xFFFF : Word).toNat := by decide

/-! ### One step: control (section 2.5) and undecodable words (section 2.6) -/

/-- V-J1. -/
theorem test_jmp : (stepped (booted [(0, 0x6000)])).pc = 0 ∧ (stepped (booted [(0, 0x6000)])).stepCount = 1 := by decide

/-- V-J2 and V-J3. -/
theorem test_jz :
    (stepped ({ booted [(9, 0x700C)] with pc := 9 }.setFlags (fl true false false false))).pc = 12 ∧
    (stepped { booted [(9, 0x700C)] with pc := 9 }).pc = 10 := by decide

/-- V-J4 and V-J5. -/
theorem test_jnz :
    (stepped { booted [(7, 0x8003)] with pc := 7 }).pc = 3 ∧
    (stepped ({ booted [(7, 0x8003)] with pc := 7 }.setFlags (fl true false false false))).pc = 8 := by decide

/-- V-J6 and V-J7, and the other modes that are not direct (decision D8). -/
theorem test_jump_modes :
    [0x6105, 0x6205, 0x6405, 0x6415, 0x7105, 0x7205, 0x7405, 0x7415, 0x8105, 0x8205, 0x8405, 0x8415].map
      (fun w => stepReturn (booted [(0, w)])) = List.replicate 12 (.fault .illegalAddressingMode) := by decide

/-- V-J8: PC goes from 4095 to 4096, and the next step faults without a fetch. -/
theorem test_pc_out_of_bounds :
    stepped { booted [(4095, 0x7000)] with pc := 4095 } =
      { booted [(4095, 0x7000)] with pc := 4096, ir := 0x7000, stepCount := 1 } ∧
    stepped { booted [(4095, 0x7000)] with pc := 4096, ir := 0x7000, stepCount := 1 } =
      { booted [(4095, 0x7000)] with
        pc := 4096, ir := 0x7000, stepCount := 1, halted := true, fault := some ⟨.pcOutOfBounds, none⟩ } := by decide

/-- V-H1 and the first step of V-H2, and the other operand fields of HALT (decision D9). -/
theorem test_halt :
    stepped { State.reset with pc := 6 } = { State.reset with pc := 6, halted := true, stepCount := 1 } ∧
    [0x0005, 0x0105, 0x0205, 0x0405, 0x0415].map (fun w => (stepped (booted [(0, w)])).halted) =
      List.replicate 5 true := by decide

/-- V-H2's second step and V-F4: Fail changes nothing. -/
theorem test_halted_fails :
    hostStep { booted [(0, 0x0005)] with ir := 0x0005, halted := true, stepCount := 1 } =
      (false, { booted [(0, 0x0005)] with ir := 0x0005, halted := true, stepCount := 1 }) := by decide

/-- V-F1 to V-F3. -/
theorem test_undecodable :
    stepped (booted [(0, 0x9000)]) = { booted [(0, 0x9000)] with
      ir := 0x9000, halted := true, fault := some ⟨.illegalOpcode, none⟩ } ∧
    stepReturn (booted [(0, 0x1420)]) = .fault .reservedOperand ∧
    stepReturn (booted [(0, 0xFFFF)]) = .fault .illegalOpcode := by decide

/-! ### Loaders, reset, run (section 2.7) -/

/-- V-M1 to V-M3, and a start that is negative. -/
theorem test_loaders :
    loadProgram [1, 2, 3] State.reset 4094 = none ∧
    (loadProgram [1, 2] State.reset 4094).map State.mem = some [(4094, 1), (4095, 2)] ∧
    loadData [70000] 0 State.reset = none ∧ loadData [1] (-1) State.reset = none ∧
    loadProgram [] State.reset 4096 = some State.reset := by decide

/-- V-M4. -/
theorem test_run_zero : run 0 State.reset = (false, State.reset) := by decide

/-- V-M5 and V-M6. -/
theorem test_resets :
    fullWipe { booted [(0, 0x1264)] with acc := 125, halted := true, stepCount := 7 } = State.reset ∧
    softReset (stepped (booted [(0, 0x9000)])) = booted [(0, 0x9000)] := by decide

/-- Inspection (10_state.md R34), the codes of 60_exceptions.md R241, and the visible states of R33. -/
theorem test_inspection :
    inspectMemory (booted [(4095, 3)]) 4095 = some 3 ∧ inspectMemory State.reset 4096 = none ∧
    [FaultKind.pcOutOfBounds, .illegalOpcode, .reservedOperand, .illegalAddressingMode, .memoryOutOfBounds].map
      FaultKind.code = [1, 2, 3, 4, 5] ∧
    visible true State.reset = .running ∧ visible false State.reset = .ready := by decide

/-! ### The assembler (sections 1 and 2.8) -/

/-- W1. -/
theorem test_assemble_w1 :
    wordsOf "LOAD #100\nADD #50\nSTORE 200\nLOAD 200\nSUB #25\nSTORE 201\nHALT" =
      some [0x1264, 0x3232, 0x20C8, 0x10C8, 0x4219, 0x20C9, 0x0000] := by decide

/-- W7. -/
theorem test_assemble_w7 :
    assemble "LOAD #1\nFOO #2\nLOAD\nSTORE #5\nHALT\n".toList = .error { errors :=
      [⟨2, .unknownMnemonic, "FOO".toList⟩, ⟨3, .missingOperand, "LOAD".toList⟩,
        ⟨4, .illegalAddressingMode, "#5".toList⟩] } := by decide

/-- V-X1: a forward reference, the label on its record, and the listing of R148. -/
theorem test_assemble_forward :
    (match assemble "JMP END\nLOAD #1\nEND: HALT".toList with
      | .ok rs => formatProgram rs
      | .error _ => []) =
      ["0000: 6002 JMP 2".toList, "0001: 1201 LOAD #1".toList, "0002: 0000 END: HALT".toList] := by decide

/-- V-X2, V-X3, V-X13, V-X21 to V-X24. -/
theorem test_assemble_words :
    wordsOf "START:\nLOAD #1\nJMP START" = some [0x1201, 0x6000] ∧
    wordsOf "load #5\nstore r3\nAdd (R3)\nhalt" = some [0x1205, 0x2403, 0x3413, 0x0000] ∧
    wordsOf "STORE (R1)" = some [0x2411] ∧ wordsOf "LOAD 007" = some [0x1007] ∧
    wordsOf "LOAD +5" = some [0x1005] ∧ wordsOf "  ; only comment\n\n" = some [] ∧
    wordsOf "A:\nB:\nLOAD A\nLOAD B\nC:" = some [0x1000, 0x1000] := by decide

/-- V-X4 to V-X12. -/
theorem test_assemble_operand_errors :
    errorsOf "LOAD R16" = [(1, .invalidRegisterIndex)] ∧ errorsOf "LOAD (R16)" = [(1, .invalidRegisterIndex)] ∧
    errorsOf "LOAD #512" = [(1, .operandOutOfRange)] ∧ errorsOf "LOAD #-1" = [(1, .operandOutOfRange)] ∧
    errorsOf "LOAD 256" = [(1, .operandOutOfRange)] ∧ errorsOf "LOAD (256)" = [(1, .operandOutOfRange)] ∧
    errorsOf "JMP R1" = [(1, .illegalAddressingMode)] ∧ errorsOf "JZ #3" = [(1, .illegalAddressingMode)] ∧
    errorsOf "JNZ (4)" = [(1, .illegalAddressingMode)] := by decide

/-- V-X14 to V-X20, V-X25 to V-X27. -/
theorem test_assemble_line_errors :
    errorsOf "HALT 5" = [(1, .unexpectedOperand)] ∧ errorsOf "LOAD 1 2" = [(1, .unexpectedOperand)] ∧
    errorsOf "LOAD X" = [(1, .unresolvedLabelOrOperand)] ∧ errorsOf "LOAD #X" = [(1, .unresolvedLabelOrOperand)] ∧
    errorsOf "1abc: HALT" = [(1, .invalidLabel)] ∧ errorsOf "R5: HALT" = [(1, .invalidLabel)] ∧
    errorsOf "A: HALT\nA: HALT" = [(2, .duplicateLabel)] ∧
    errorsOf "LOAD #0x10" = [(1, .unresolvedLabelOrOperand)] ∧ errorsOf "LOAD ( 5 )" = [(1, .unexpectedOperand)] ∧
    errorsOf "X: Y: HALT" = [(1, .unknownMnemonic)] := by decide

/-! ### Witnesses: encoding -/

theorem test_witness_DecodeOfEncodeIsIdentity :
    tripleWellFormed 0 .direct 0 = true ∧ tripleWellFormed 8 .direct 255 = true ∧
    tripleWellFormed 2 .indirect 255 = true ∧ tripleWellFormed 2 .immediate 511 = true ∧
    tripleWellFormed 6 .register 15 = true ∧ tripleWellFormed 8 .registerIndirect 15 = true := by decide

theorem test_witness_EncodeOfDecodeIsIdentity : decode 0x841F = .valid (.jnzRegisterIndirect 15) := by decide

/-- The three clauses at both ends of their ranges. -/
theorem test_witness_DecodeVerdictByWordRange :
    0x9000 ≤ (0x9000 : Word).toNat ∧ 0x9000 ≤ (0xFFFF : Word).toNat ∧
    ((0x0420 : Word).toNat < 0x9000 ∧ 1056 ≤ (0x0420 : Word).toNat % 4096) ∧
    ((0x8FFF : Word).toNat < 0x9000 ∧ 1056 ≤ (0x8FFF : Word).toNat % 4096) ∧
    ((0x0000 : Word).toNat < 0x9000 ∧ (0x0000 : Word).toNat % 4096 < 1056) ∧
    ((0x841F : Word).toNat < 0x9000 ∧ (0x841F : Word).toNat % 4096 < 1056) := by decide

theorem test_witness_UndefinedOpcodesAreHardErrors :
    9 ≤ (opcodeField 0x9000).toNat ∧ 9 ≤ (opcodeField 0xFFFF).toNat ∧
    encodeTriple 9 .direct 0 = .error .unknownOpcode ∧ encodeTriple 15 .immediate (-1) = .error .unknownOpcode ∧
    Opcode.ofMnemonic "HALTS".toList = none := by decide

/-- Every clause at both ends of its range. -/
theorem test_witness_ClassifyPartitionsTheOperandField :
    classify 0 = some (.direct 0) ∧ classify 255 = some (.direct 255) ∧
    classify 256 = some (.indirect 0) ∧ classify 511 = some (.indirect 255) ∧
    classify 512 = some (.immediate 0) ∧ classify 1023 = some (.immediate 511) ∧
    classify 1024 = some (.register 0) ∧ classify 1039 = some (.register 15) ∧
    classify 1040 = some (.registerIndirect 0) ∧ classify 1055 = some (.registerIndirect 15) ∧
    classify 1056 = none ∧ classify 4095 = none := by decide

theorem test_witness_MnemonicsEncodeInEitherCase :
    upperCase "store".toList = Opcode.store.mnemonic ∧ upperCase "JnZ".toList = Opcode.jnz.mnemonic := by decide

/-! ### Witnesses: memory -/

/-- The last word and the two ends of the addresses that do not exist. -/
theorem test_witness_MemoryAccessReadsAndWritesOneWord :
    (0 : Word).toNat ≤ 4095 ∧ (4095 : Word).toNat ≤ 4095 ∧ 4094 ≠ (4095 : Word).toNat ∧
    (booted [(4095, 7)]).mem.wf = true ∧ 4095 < (4096 : Word).toNat ∧ 4095 < (65535 : Word).toNat := by decide

/-- The same two words, written in the two orders. -/
theorem test_witness_CanonicalMemoriesReadAlikeOnlyIfEqual :
    (Memory.write (Memory.write [] 0 1) 4095 2).wf = true ∧ (Memory.write (Memory.write [] 4095 2) 0 1).wf = true ∧
    ∀ a, a ≤ 4095 →
      (Memory.write (Memory.write [] 0 1) 4095 2).read a = (Memory.write (Memory.write [] 4095 2) 0 1).read a :=
  ⟨by decide, by decide, fun _ _ => by
    rw [show Memory.write (Memory.write [] 0 1) 4095 2 = Memory.write (Memory.write [] 4095 2) 0 1 by decide]⟩

/-! ### Witnesses: meanings -/

/-- A state with an operand for every mode: a word at the last direct address, a pointer and a register at 4095. -/
def operandState : State :=
  (booted [(0, 3), (5, 4095), (255, 4), (4095, 9)]).setReg 15 4095

theorem test_witness_LoadCompletes :
    OperandIs operandState 4 (.direct 255) ∧ OperandIs operandState 9 (.indirect 5) ∧
    OperandIs operandState 511 (.immediate 511) ∧ OperandIs operandState 4095 (.register 15) ∧
    OperandIs operandState 9 (.registerIndirect 15) := by
  refine ⟨?_, ⟨?_, ?_⟩, ?_, ?_, ⟨?_, ?_⟩⟩ <;> first | decide | exact rfl

/-- ADD takes the operands of LOAD; here an addition that wraps. -/
theorem test_witness_AddCompletes : OperandIs (operandState.setAcc 0xFFFF) 4 (.direct 255) ∧
    OperandIs (operandState.setAcc 0xFFFF) 9 (.registerIndirect 15) := by
  refine ⟨?_, ?_, ?_⟩ <;> first | decide | exact rfl

/-- SUB takes the operands of LOAD; here a difference below 0. -/
theorem test_witness_SubCompletes : OperandIs operandState 9 (.indirect 5) ∧ OperandIs operandState 4095 (.register 15) := by
  refine ⟨⟨?_, ?_⟩, ?_⟩ <;> first | decide | exact rfl

/-- CMP takes the operands of LOAD; here equal words. -/
theorem test_witness_CmpCompletes : OperandIs (operandState.setAcc 511) 511 (.immediate 511) ∧
    OperandIs (operandState.setAcc 9) 9 (.indirect 5) := by
  refine ⟨?_, ?_, ?_⟩ <;> first | decide | exact rfl

theorem test_witness_StoreToMemoryCompletes :
    (locate (.direct 255) operandState = .ok (.memory 255) ∧ (255 : Word).toNat ≤ 4095) ∧
    (locate (.indirect 5) operandState = .ok (.memory 4095) ∧ (4095 : Word).toNat ≤ 4095) ∧
    locate (.registerIndirect 15) operandState = .ok (.memory 4095) :=
  ⟨⟨rfl, by decide⟩, ⟨rfl, by decide⟩, rfl⟩

theorem test_witness_IllegalModesTakeTheirFault :
    (Opcode.store = .store ∧ (Operand.immediate 5).mode = .immediate) ∧
    (Operand.indirect 5).mode ≠ .direct ∧ (Operand.immediate 5).mode ≠ .direct ∧
    (Operand.register 5).mode ≠ .direct ∧ (Operand.registerIndirect 5).mode ≠ .direct := by decide

/-- The first and the last address out of bounds, one per mode. -/
theorem test_witness_OutOfBoundsOperandsTakeTheirFault :
    Opcode.store ∈ [Opcode.load, .store, .add, .sub, .cmp] ∧
    OperandOut (booted [(5, 4096)]) 4096 (.indirect 5) ∧
    OperandOut (State.reset.setReg 2 65535) 65535 (.registerIndirect 2) := by
  refine ⟨by decide, ⟨?_, ?_⟩, ?_, ?_⟩ <;> decide

/-! ### Witnesses: all instructions -/

/-- One instruction of every case of the rule, each counted as a step. -/
theorem test_witness_NextPcOfEveryInstruction :
    ∀ i ∈ [Instr.loadImmediate 1, .storeDirect 9, .addImmediate 1, .subRegister 1, .cmpImmediate 0, .haltDirect 0,
        .jmpDirect 255, .jzDirect 7, .jnzDirect 7],
      (after i State.reset).stepCount = State.reset.stepCount + 1 ∧ exec i State.reset = .next (after i State.reset) := by
  intro i hi
  simp only [List.mem_cons, List.not_mem_nil, or_false] at hi
  rcases hi with rfl | rfl | rfl | rfl | rfl | rfl | rfl | rfl | rfl <;> exact ⟨rfl, rfl⟩

/-- One instruction that changes the piece of state of each clause: ACC, the flags, a register, memory, halted, the latch. -/
theorem test_witness_OnlyTheListedInstructionsWrite :
    (after (.loadImmediate 1) State.reset).acc ≠ State.reset.acc ∧
    (after (.cmpImmediate 0) State.reset).flags ≠ State.reset.flags ∧
    (after (.storeRegister 0) (State.reset.setAcc 5)).getReg 0 ≠ (State.reset.setAcc 5).getReg 0 ∧
    (after (.storeDirect 9) (State.reset.setAcc 5)).mem.read 9 ≠ (State.reset.setAcc 5).mem.read 9 ∧
    (after (.haltDirect 0) State.reset).halted ≠ State.reset.halted ∧
    (after (.storeImmediate 9) State.reset).fault ≠ State.reset.fault := by decide

theorem test_witness_InstructionRegisterIsWrittenNeverRead :
    ({ booted [(4095, 0x1201)] with pc := 4095 }).halted = false ∧
    ({ booted [(4095, 0x1201)] with pc := 4095 }).pc.toNat ≤ 4095 ∧
    exec (.loadImmediate 1) State.reset = .next (after (.loadImmediate 1) State.reset) :=
  ⟨rfl, by decide, rfl⟩

theorem test_witness_RunsCannotDependOnSignCarryOverflow :
    (fl false true true true).zf = State.reset.flags.zf ∧ fl false true true true ≠ State.reset.flags := by decide

/-! ### Witnesses: the step -/

theorem test_witness_StepRunsTheDecodedInstruction :
    ({ booted [(4095, 0x8003)] with pc := 4095 }).halted = false ∧
    ({ booted [(4095, 0x8003)] with pc := 4095 }).pc.toNat ≤ 4095 ∧
    decode ({ booted [(4095, 0x8003)] with pc := 4095 }.mem.read 4095) = .valid (.jnzDirect 3) := by decide

theorem test_witness_HaltedStepFailsAndChangesNothing :
    ({ State.reset with halted := true, acc := 5 }).halted = true := by decide

/-- The six clauses, each at the boundary where the one before it stops holding; no state is halted, and but for the first
each fetches. -/
theorem test_witness_FirstConditionDecidesTheStep :
    (({ State.reset with pc := 4096 }).halted = false ∧ 4095 < ({ State.reset with pc := 4096 }).pc.toNat) ∧
    (fetches (booted [(0, 0x9000)]) = true ∧ 8 < (opcodeField ((booted [(0, 0x9000)]).mem.read 0)).toNat) ∧
    (fetches (booted [(0, 0x8420)]) = true ∧ (opcodeField ((booted [(0, 0x8420)]).mem.read 0)).toNat ≤ 8 ∧
      1055 < (operandField ((booted [(0, 0x8420)]).mem.read 0)).toNat) ∧
    (fetches (booted [(0, 0x841F)]) = true ∧
      decode ((booted [(0, 0x841F)]).mem.read 0) = .valid (.jnzRegisterIndirect 15) ∧
      Instr.wellFormed (.jnzRegisterIndirect 15) = false) ∧
    (fetches State.reset = true ∧ decode (State.reset.mem.read 0) = .valid (.haltDirect 0) ∧
      Instr.wellFormed (.haltDirect 0) = true ∧ (Instr.haltDirect 0).op = .halt) := by decide

/-- The fifth clause at the first pointer out of bounds. -/
theorem test_witness_FirstConditionDecidesTheStep_out :
    fetches (booted [(0, 0x2105), (5, 4096)]) = true ∧
    decode ((booted [(0, 0x2105), (5, 4096)]).mem.read 0) = .valid (.storeIndirect 5) ∧
    Instr.wellFormed (.storeIndirect 5) = true ∧ (Instr.storeIndirect 5).op ≠ .halt ∧
    OperandOut (booted [(0, 0x2105), (5, 4096)]) 4096 (Instr.storeIndirect 5).operand :=
  ⟨by decide, by decide, by decide, by decide, by decide, by decide⟩

/-- The sixth clause in its second form, at the last pointer in bounds. -/
theorem test_witness_FirstConditionDecidesTheStep_in :
    fetches (booted [(0, 0x2105), (5, 4095)]) = true ∧
    decode ((booted [(0, 0x2105), (5, 4095)]).mem.read 0) = .valid (.storeIndirect 5) ∧
    Instr.wellFormed (.storeIndirect 5) = true ∧
    ∀ a, ¬ OperandOut (booted [(0, 0x2105), (5, 4095)]) a (Instr.storeIndirect 5).operand := by
  refine ⟨by decide, by decide, by decide, ?_⟩
  intro a h
  obtain ⟨h1, h2⟩ := h
  rw [← h1] at h2
  revert h2
  decide

/-- One state for each of the five kinds. -/
theorem test_witness_FaultEntryIsPrecise :
    stepReturn { State.reset with pc := 4096 } = .fault .pcOutOfBounds ∧
    stepReturn (booted [(0, 0x9000)]) = .fault .illegalOpcode ∧
    stepReturn (booted [(0, 0x8420)]) = .fault .reservedOperand ∧
    stepReturn (booted [(0, 0x2205)]) = .fault .illegalAddressingMode ∧
    stepReturn (booted [(0, 0x1105), (5, 4096)]) = .fault .memoryOutOfBounds := by decide

/-- The last PC the rule covers: the word at 4094 is STORE (5), and the pointer at 5 is 4095. -/
theorem test_witness_StoredWordIsFetchedNext :
    ({ booted [(5, 4095), (4094, 0x2105)] with pc := 4094 }).halted = false ∧
    ({ booted [(5, 4095), (4094, 0x2105)] with pc := 4094 }).pc.toNat < 4095 ∧
    decode ((booted [(5, 4095), (4094, 0x2105)]).mem.read 4094) = .valid (Instr.of .store (.indirect 5)) ∧
    locate (.indirect 5) { booted [(5, 4095), (4094, 0x2105)] with pc := 4094 } =
      .ok (.memory (({ booted [(5, 4095), (4094, 0x2105)] with pc := 4094 }).pc + 1)) :=
  ⟨rfl, by decide, by decide, rfl⟩

/-! ### Witnesses: invariants, runs, loaders -/

/-- A sound state that is not the one after construction: a loaded program, and ACC = 5. -/
theorem sound_loaded : ({ booted [(0, 0x2105), (5, 4096)] with acc := 5 }).Sound where
  memory := by decide
  pc_le := by decide
  fault_halts := by decide
  fault_matches := fun _ h => by cases h
  halt_was_halt := fun h => by cases h

theorem test_witness_StepKeepsSound : ({ booted [(0, 0x2105), (5, 4096)] with acc := 5 }).Sound ∧
    step { booted [(0, 0x2105), (5, 4096)] with acc := 5 } =
      .next (stepped { booted [(0, 0x2105), (5, 4096)] with acc := 5 }) :=
  ⟨sound_loaded, rfl⟩

theorem test_witness_HostOperationsKeepSound : ({ booted [(0, 0x2105), (5, 4096)] with acc := 5 }).Sound ∧
    (loadProgram [1, 65535] { booted [(0, 0x2105), (5, 4096)] with acc := 5 } 4094).isSome = true :=
  ⟨sound_loaded, by decide⟩

/-- A halted state, and a state that steps. -/
theorem test_witness_RunsComposeAndStopWhenHalted :
    ({ booted [(0, 0x6000)] with halted := true }).halted = true ∧
    (booted [(0, 0x1205)]).halted = false ∧
    step (booted [(0, 0x1205)]) = .next (after (.loadImmediate 5) { booted [(0, 0x1205)] with ir := 0x1205 }) :=
  ⟨rfl, rfl, rfl⟩

/-- A loop of one instruction, run three steps. -/
theorem test_witness_RunsNotHaltedCountEveryStep : (runState 3 (booted [(0, 0x6000)])).halted = false := by decide

/-- The last place a block of two fits, the first and the last address outside it, and its two values at the ends of the Word
range. -/
theorem test_witness_LoadersWriteTheBlockOrNothing :
    (loadProgram [0, 65535] State.reset 4094).isSome = true ∧ ((4093 : Nat) : Int) < 4094 ∧
    (4094 : Int) + ([0, 65535] : List Int).length ≤ (4096 : Nat) := by decide

/-! ### Witnesses: disassembly and the assembler -/

theorem test_witness_DisassemblyIsLosslessOnValidWords :
    decode 0x0005 = .valid (.haltDirect 5) ∧ disassemble 0x0005 = disassemble 0x0005 := by decide

theorem test_witness_DisassemblyReassemblesCanonicalWords :
    Instr.canonical (.haltDirect 0) = true ∧ Instr.canonical (.jnzDirect 255) = true ∧
    Instr.canonical (.storeIndirect 255) = true ∧ Instr.canonical (.loadImmediate 511) = true ∧
    Instr.canonical (.cmpRegister 15) = true ∧ Instr.canonical (.storeRegisterIndirect 15) = true := by decide

/-- A source of two lines, whose records are a STORE and a HALT. -/
def twoRecords : List AssembledInstruction :=
  [⟨0x2411, "STORE".toList, some 1, some .registerIndirect, some "A".toList, 0⟩,
    ⟨0x0000, "HALT".toList, none, none, none, 1⟩]

theorem test_witness_AssembledRecordsDecodeToThemselves :
    assemble "A: store (r1)\nhalt".toList = .ok twoRecords ∧
    ∃ r ∈ twoRecords, ∃ r' ∈ twoRecords, r.mnemonic = Opcode.halt.mnemonic ∧ r'.mnemonic ≠ Opcode.halt.mnemonic := by
  decide

theorem test_witness_AssembledAddressesCountFromZero :
    assemble "A: store (r1)\n\n; nothing\nhalt\n".toList = .ok twoRecords := by decide

/-- A source that fails on two lines, one that does not, and a failing line of the first. -/
theorem test_witness_AggregatedErrorListsEveryFailingLine :
    assemble "FOO\nHALT\nLOAD".toList =
      .error { errors := [⟨1, .unknownMnemonic, "FOO".toList⟩, ⟨3, .missingOperand, "LOAD".toList⟩] } ∧
    ∃ p ∈ addressed 0 (scan "FOO\nHALT\nLOAD".toList),
      lineError (passOne (scan "FOO\nHALT\nLOAD".toList)) p = some ⟨3, .missingOperand, "LOAD".toList⟩ := by decide

/-- The second definition of a label is not in the table, and its line has a valid label all the same; a label after the last
statement is in the table. -/
theorem test_witness_LabelTableHoldsFirstDefinitions :
    passOne (scan "A: HALT\nA: HALT\nEND:".toList) = [⟨"A".toList, 0, 1⟩, ⟨"END".toList, 2, 3⟩] ∧
    (∃ l ∈ scan "A: HALT\nA: HALT\nEND:".toList, l.number = 2 ∧ l.label = some "A".toList) ∧
    validLabel "A".toList = true := by decide

/-! A source of any number of HALT lines assembles: the witness for a program one record too long to load. -/

/-- `n` lines `HALT`, each ending in a line feed. -/
def haltLines : Nat → Text
  | 0 => []
  | n + 1 => "HALT\n".toList ++ haltLines n

theorem splitLines_haltLines (n : Nat) :
    splitLines (haltLines n) = List.replicate n "HALT".toList ++ [[]] := by
  induction n with
  | zero => rfl
  | succ n ih => simp [haltLines, splitLines, ih, List.replicate_succ]

theorem passOne_halts (n k c : Nat) : passOneFrom c [] (scanFrom k (List.replicate n "HALT".toList ++ [[]])) = [] := by
  induction n generalizing k c with
  | zero => rfl
  | succ n ih => exact ih (k + 1) (c + 1)

theorem passTwo_halts (n k c : Nat) :
    ∃ rs, passTwoFrom [] c (scanFrom k (List.replicate n "HALT".toList ++ [[]])) = ([], rs) ∧ rs.length = n := by
  induction n generalizing k c with
  | zero => exact ⟨[], rfl, rfl⟩
  | succ n ih =>
    obtain ⟨rs, h, hl⟩ := ih (k + 1) (c + 1)
    refine ⟨⟨0, "HALT".toList, none, none, none, c⟩ :: rs, ?_, by simp [hl]⟩
    have step : passTwoFrom [] c (scanFrom k (List.replicate (n + 1) "HALT".toList ++ [[]])) =
        (match passTwoFrom [] (c + 1) (scanFrom (k + 1) (List.replicate n "HALT".toList ++ [[]])) with
          | (errs, recs) => (errs, ⟨0, "HALT".toList, none, none, none, c⟩ :: recs)) := rfl
    rw [step, h]

/-- 4096 records fit, 4097 do not. -/
theorem test_witness_AssembledProgramsLoadAtZero :
    (∃ rs, assemble (haltLines 4096) = .ok rs ∧ rs.length ≤ 4096) ∧
    ∃ rs, assemble (haltLines 4097) = .ok rs ∧ 4096 < rs.length := by
  have key : ∀ n, ∃ rs, assemble (haltLines n) = .ok rs ∧ rs.length = n := by
    intro n
    obtain ⟨rs, h, hl⟩ := passTwo_halts n 1 0
    refine ⟨rs, ?_, hl⟩
    unfold assemble scan passOne passTwo
    rw [splitLines_haltLines, passOne_halts, h]
  obtain ⟨rs, h, hl⟩ := key 4096
  obtain ⟨rs', h', hl'⟩ := key 4097
  exact ⟨⟨rs, h, by omega⟩, rs', h', by omega⟩

end Sys2Proof.Tests
end

section
/-! SUPPORT. The instruction register (10_state.md R25): every step that fetches writes it, no instruction reads it. No
instruction reads IR because each layer of `exec` (the operand's value, the destination write, the effect, `perform`)
commutes with `State.loadIR`. -/

namespace Sys2Proof.Machine

/-! ### Every layer of an instruction commutes with loading IR -/

/-- An operand's value depends on memory and the registers only (40_engine.md R191). -/
@[simp] theorem valueAt_loadIR (o : Operand) (s : State) (w : Word) : valueAt o (s.loadIR w) = valueAt o s := by
  cases o with
  | direct a => simp only [valueAt_direct, State.loadIR_mem]
  | indirect a => simp only [valueAt_indirect, memRead_eq, State.loadIR_mem]
  | immediate n => simp only [valueAt_immediate]
  | register k => simp only [valueAt_register, State.getReg_loadIR]
  | registerIndirect k => simp only [valueAt_registerIndirect, memRead_eq, State.loadIR_mem, State.getReg_loadIR]

theorem memWrite_loadIR (a x : Word) (s : State) (w : Word) :
    memWrite a x (s.loadIR w) = (memWrite a x s).map (·.loadIR w) := by
  rw [memWrite_eq, memWrite_eq]
  split <;> rfl

theorem storeTo_loadIR (o : Operand) (x : Word) (s : State) (w : Word) :
    storeTo o x (s.loadIR w) = (storeTo o x s).map (·.loadIR w) := by
  cases o with
  | direct a => simp only [storeTo_direct]; rfl
  | indirect a => simp only [storeTo_indirect, memWrite_loadIR, State.loadIR_mem]
  | immediate n => simp only [storeTo_immediate]; rfl
  | register k => simp only [storeTo_register]; rfl
  | registerIndirect k => simp only [storeTo_registerIndirect, memWrite_loadIR, State.getReg_loadIR]

/-- A computation that may fault, followed by updates that commute with loading IR. -/
theorem bind_map_loadIR {α : Type} {e : Except FaultRecord α} {f g : α → Except FaultRecord State} {w : Word}
    (h : ∀ a, g a = (f a).map (·.loadIR w)) : (e >>= g) = (e >>= f).map (·.loadIR w) := by
  cases e with
  | error r => rfl
  | ok a => exact h a

theorem storeEffect_loadIR (o : Operand) (s : State) (w : Word) :
    storeEffect o (s.loadIR w) = (storeEffect o s).map (·.loadIR w) := by
  simp only [storeEffect, storeTo_loadIR, State.loadIR_acc]
  cases storeTo o s.acc s <;> rfl

/-- LOAD, ADD, SUB and CMP go on from the operand's value, the jumps from the target, STORE from the destination write. -/
theorem effectOf_loadIR (op : Opcode) (o : Operand) (s : State) (w : Word) :
    effectOf op o (s.loadIR w) = (effectOf op o s).map (·.loadIR w) := by
  cases op with
  | halt => rfl
  | store => exact storeEffect_loadIR o s w
  | load | add | sub | cmp =>
    simp only [effectOf, loadEffect, addEffect, subEffect, cmpEffect, valueAt_loadIR]
    exact bind_map_loadIR fun _ => rfl
  | jmp | jz | jnz => exact bind_map_loadIR fun _ => rfl

theorem perform_loadIR {op : Opcode} {o : Operand} {s t : State} {e : Except FaultRecord State} (w : Word)
    (h : perform op o s e = .next t) :
    perform op o (s.loadIR w) (e.map (·.loadIR w)) = .next (t.loadIR w) := by
  unfold perform at h ⊢
  cases hl : legalMode op o.mode <;> rw [hl] at h
  case false => cases h; rfl
  case true => cases e <;> cases h <;> rfl

/-- No instruction reads IR (10_state.md R25). -/
theorem exec_loadIR {i : Instr} {s t : State} (w : Word) (h : exec i s = .next t) :
    exec i (s.loadIR w) = .next (t.loadIR w) := by
  rw [exec_eq_perform] at h
  rw [exec_eq_perform, effectOf_loadIR]
  exact perform_loadIR w h

/-! ### IR after an instruction and after a fetching step -/

/-- Every instruction answers a next state and keeps IR, whether it completes or faults. -/
theorem exec_next_ir (i : Instr) (s : State) : ∃ t, exec i s = .next t ∧ t.ir = s.ir := by
  rw [exec_eq_perform]
  rcases perform_cases i.op i.operand s (effectOf i.op i.operand s) with ⟨t, -, he, hp⟩ | ⟨r, -, -, hp⟩ | ⟨-, hp⟩
  · obtain ⟨-, hir, -⟩ := effectOf_ok he
    exact ⟨t, hp, hir⟩
  · exact ⟨_, hp, rfl⟩
  · exact ⟨_, hp, rfl⟩

/-- A step that fetches leaves the fetched word in IR, also where the word does not decode (40_engine.md R184, R185). -/
theorem step_ir_of_fetches {s : State} (hh : s.halted = false) (hpc : s.pc.toNat < Config.memWords) :
    ∃ t, step s = .next t ∧ t.ir = s.mem.read s.pc.toNat := by
  rcases step_cases s with ⟨hh', -⟩ | ⟨-, hpc', -⟩ | ⟨why, -, -, -, hs⟩ | ⟨i, -, -, -, hs⟩
  · exact absurd hh' (by simp [hh])
  · exact absurd hpc hpc'
  · exact ⟨_, hs, rfl⟩
  · rw [hs]
    exact exec_next_ir i _

/-- Settles O29: a fetching step writes IR, and every layer of an instruction commutes with loading another IR. -/
theorem instructionRegisterIsWrittenNeverRead : Obligations.InstructionRegisterIsWrittenNeverRead := by
  unfold Obligations.InstructionRegisterIsWrittenNeverRead
  refine ⟨fun s hh hpc => ?fetch, fun _ _ _ w h => exec_loadIR w h, rfl, softReset_ir⟩
  case fetch => exact step_ir_of_fetches hh (Nat.lt_succ_of_le hpc)

end Sys2Proof.Machine
end

section
/-! SUPPORT. Encoding: the words, opcode numbers and mnemonics that the codec refuses (30_encoding.md R82), and the operand
field as a mode's offset plus a value of its range: read so by classification (R85) and written so on the wire (R87). -/

namespace Sys2Proof

/-! ### Undefined opcodes (30_encoding.md R82) -/

theorem decode_of_opcodeField_gt {w : Word} (h : 8 < (opcodeField w).toNat) : decode w = .invalid .unknownOpcode := by
  simp only [decode, (Opcode.ofCode_eq_none_iff _).mpr h]

theorem encodeTriple_of_gt {op : Nat} (h : 8 < op) (m : Mode) (v : Int) : encodeTriple op m v = .error .unknownOpcode :=
  if_pos (Nat.not_le_of_lt h)

theorem encodeMnemonic_of_none {t : Text} (h : Opcode.ofMnemonic t = none) (m : Mode) (v : Int) :
    encodeMnemonic t m v = .error .unknownMnemonic := by
  simp only [encodeMnemonic, h]

/-- Settles O4: an opcode number above 8 names no opcode, and both directions look the opcode up before the operand. -/
theorem undefinedOpcodesAreHardErrors : Obligations.UndefinedOpcodesAreHardErrors := by
  unfold Obligations.UndefinedOpcodesAreHardErrors
  exact ⟨fun _ h => decode_of_opcodeField_gt h, fun _ m v h => encodeTriple_of_gt h m v,
    fun _ m v h => encodeMnemonic_of_none h m v⟩

/-! ### The operand field, range by range (30_encoding.md R85, R87) -/

/-- A field in a mode's range classifies as the operand of that mode whose value is the distance from the mode's offset. -/
theorem classify_of_mem_range (m : Mode) {f : BitVec 12} (hlo : m.offset ≤ f.toNat)
    (hhi : f.toNat < m.offset + m.rangeSize) :
    ∃ o, classify f = some o ∧ o.mode = m ∧ o.value = f.toNat - m.offset := by
  have hmode : (Operand.ofValue m (f.toNat - m.offset)).mode = m := Operand.mode_ofValue m _
  have hvalue : (Operand.ofValue m (f.toNat - m.offset)).value = f.toNat - m.offset :=
    Operand.value_ofValue (by omega)
  exact ⟨_, classify_of _ f (by rw [hmode, hvalue]; omega), hmode, hvalue⟩

/-- Settles O5: each clause but the last is one mode's range, from its offset on; the last is the reserved range. -/
theorem classifyPartitionsTheOperandField : Obligations.ClassifyPartitionsTheOperandField := by
  unfold Obligations.ClassifyPartitionsTheOperandField
  intro f
  refine ⟨fun hhi => ?direct, fun hlo hhi => ?indirect, fun hlo hhi => ?immediate, fun hlo hhi => ?register,
    fun hlo hhi => ?registerIndirect, (classify_none_iff f).mpr⟩
  case direct => exact classify_of_mem_range .direct (Nat.zero_le _) (Nat.lt_succ_of_le hhi)
  case indirect => exact classify_of_mem_range .indirect hlo (Nat.lt_succ_of_le hhi)
  case immediate => exact classify_of_mem_range .immediate hlo (Nat.lt_succ_of_le hhi)
  case register => exact classify_of_mem_range .register hlo (Nat.lt_succ_of_le hhi)
  case registerIndirect => exact classify_of_mem_range .registerIndirect hlo (Nat.lt_succ_of_le hhi)

/-- The operand field of an instruction's word is its mode's offset plus its value: the sum stays below 4096, so no bit of
it reaches the opcode field. -/
theorem operandField_encode (i : Instr) :
    (operandField (encode i)).toNat = i.operand.mode.offset + i.operand.value := by
  have hfit := Mode.offset_add_lt i.operand.value_lt
  have hword : (encode i).toNat = i.op.code * 4096 + (i.operand.mode.offset + i.operand.value) :=
    Laws.EncodeLayout.general i
  rw [operandField_toNat, hword]
  omega

/-- Settles O6: the field by the layout of a word, the value's bound by the operand's width, the two tables by definition. -/
theorem modeOffsetsAreTheWireIdentity : Obligations.ModeOffsetsAreTheWireIdentity := by
  unfold Obligations.ModeOffsetsAreTheWireIdentity
  exact ⟨fun i => ⟨operandField_encode i, i.operand.value_lt⟩, rfl, rfl⟩

end Sys2Proof
end

section
/-! SUPPORT. The errors of the assembler (31_assembler.md R142 to R144): pass 2 collects the error of each of its lines, in
line order, and `assemble` answers that list exactly when it is not empty. -/

namespace Sys2Proof.Claims

open Sys2Proof.Machine

/-! ### The lines of pass 2 with their addresses (R132) -/

/-- Giving each line its address drops no line and keeps their order. -/
@[simp] theorem addressed_map_snd (n : Nat) (ls : List SourceLine) : (addressed n ls).map Prod.snd = ls := by
  induction ls generalizing n with
  | nil => rfl
  | cons l ls ih => simp only [addressed, List.map_cons, ih]

/-- The lines of pass 2 come in rising line number (R121). -/
theorem addressed_scan_sorted (n : Nat) (source : Text) :
    (addressed n (scan source)).Pairwise (fun p q => p.2.number < q.2.number) := by
  have hnumbers : ((scan source).map SourceLine.number).Pairwise (· < ·) := (scanFrom_sorted 1 (splitLines source)).1
  rwa [← addressed_map_snd n (scan source), List.map_map, List.pairwise_map] at hnumbers

/-! ### The error of one line (R143) -/

theorem lineError_of_error {tbl : LabelTable} {p : Nat × SourceLine} {e : LineError}
    (h : assembleLine tbl p.1 p.2 = .error e) : lineError tbl p = some e := by
  simp only [lineError, h]

theorem lineError_of_ok {tbl : LabelTable} {p : Nat × SourceLine} {r : Option AssembledInstruction}
    (h : assembleLine tbl p.1 p.2 = .ok r) : lineError tbl p = none := by
  simp only [lineError, h]

theorem lineError_line {tbl : LabelTable} {p : Nat × SourceLine} {e : LineError} (h : lineError tbl p = some e) :
    e.line = p.2.number := by
  cases hp : assembleLine tbl p.1 p.2 with
  | ok r => rw [lineError_of_ok hp] at h; cases h
  | error e' =>
    rw [lineError_of_error hp] at h
    cases h
    exact assembleLine_error_line hp

/-- The errors of lines in rising line number name lines in rising order. -/
theorem filterMap_lineError_sorted {tbl : LabelTable} {ps : List (Nat × SourceLine)}
    (h : ps.Pairwise (fun p q => p.2.number < q.2.number)) :
    ((ps.filterMap (lineError tbl)).map LineError.line).Pairwise (· < ·) := by
  rw [List.pairwise_map, List.pairwise_filterMap]
  refine h.imp fun hlt e he e' he' => ?_
  rw [lineError_line he, lineError_line he']
  exact hlt

/-! ### The errors of pass 2 and the answer of `assemble` (R144) -/

/-- Pass 2 collects the error of every failing line, each line at its own address, in line order. -/
theorem passTwoFrom_errors (tbl : LabelTable) (n : Nat) (ls : List SourceLine) :
    (passTwoFrom tbl n ls).1 = (addressed n ls).filterMap (lineError tbl) := by
  induction ls generalizing n with
  | nil => rfl
  | cons l ls ih =>
    cases hl : assembleLine tbl n l with
    | error e =>
      have hline : lineError tbl (n, l) = some e := lineError_of_error hl
      simp only [passTwoFrom, addressed, hl, List.filterMap_cons_some hline, ih]
    | ok r =>
      have hline : lineError tbl (n, l) = none := lineError_of_ok hl
      cases r <;> simp only [passTwoFrom, addressed, hl, List.filterMap_cons_none hline, ih]

/-- `assemble` answers the errors of pass 2, and answers an error only where there are some. -/
theorem assemble_eq_error_iff {source : Text} {e : AggregatedAssemblyError} :
    assemble source = .error e ↔
      e.errors = (addressed 0 (scan source)).filterMap (lineError (passOne (scan source))) ∧ e.errors ≠ [] := by
  obtain ⟨errs⟩ := e
  rw [← passTwoFrom_errors]
  unfold assemble passTwo
  generalize passTwoFrom (passOne (scan source)) 0 (scan source) = answer
  obtain ⟨found, records⟩ := answer
  cases found with
  | nil => simp
  | cons e es =>
    simp only [Except.error.injEq, AggregatedAssemblyError.mk.injEq]
    exact ⟨fun h => ⟨h.symm, h ▸ List.cons_ne_nil e es⟩, fun h => h.1.symm⟩

/-- `assemble` answers an error exactly when some line of pass 2 fails. -/
theorem exists_assemble_eq_error_iff {source : Text} :
    (∃ e, assemble source = .error e) ↔
      ∃ p ∈ addressed 0 (scan source), (lineError (passOne (scan source)) p).isSome = true := by
  calc (∃ e, assemble source = .error e)
    _ ↔ (addressed 0 (scan source)).filterMap (lineError (passOne (scan source))) ≠ [] := by
        simp only [assemble_eq_error_iff]
        exact ⟨fun ⟨_, heq, hne⟩ => heq ▸ hne, fun hne => ⟨⟨_⟩, rfl, hne⟩⟩
    _ ↔ _ := by
        simp only [ne_eq, List.filterMap_eq_nil_iff, not_forall, exists_prop, ← Option.isSome_iff_ne_none]

/-- Settles O46: pass 2 collects the lines' errors in line order, the lines rise, and each error names its line. -/
theorem aggregatedErrorListsEveryFailingLine : Obligations.AggregatedErrorListsEveryFailingLine := by
  unfold Obligations.AggregatedErrorListsEveryFailingLine
  refine fun source => ⟨fun e he => ?answer, exists_assemble_eq_error_iff, fun _ _ _ => lineError_line⟩
  case answer =>
    obtain ⟨hlist, hne⟩ := assemble_eq_error_iff.mp he
    exact ⟨hlist, hne, hlist ▸ filterMap_lineError_sorted (addressed_scan_sorted 0 source)⟩

end Sys2Proof.Claims
end

section
/-! SUPPORT. The engine (40_engine.md): the next PC of each completed effect (R183), the flag function as arithmetic on the
unmasked result (R190), and the step of a halted machine (R181). -/

namespace Sys2Proof.Machine

/-! ### The next PC of a completed effect (R183) -/

/-- The five instructions that access their operand go on to the next word. -/
theorem effectOf_pc_of_access {op : Opcode} {o : Operand} {s t : State} (hop : op ∈ [Opcode.load, .store, .add, .sub, .cmp])
    (h : effectOf op o s = .ok t) : t.pc = s.pc + 1 := by
  cases op with
  | load | store | add | sub | cmp =>
    obtain ⟨_, -, h⟩ := bind_ok h
    cases h
    rfl
  | halt | jmp | jz | jnz => simp at hop

theorem haltEffect_pc {s t : State} (h : haltEffect s = .ok t) : t.pc = s.pc := by
  cases h
  rfl

theorem jmpEffect_pc {o : Operand} {s t : State} (h : jmpEffect o s = .ok t) : t.pc = BitVec.ofNat 16 o.value := by
  obtain ⟨a, ha, h⟩ := bind_ok h
  cases h
  exact jumpTarget_ok ha

theorem jzEffect_pc {o : Operand} {s t : State} (h : jzEffect o s = .ok t) :
    t.pc = if s.flags.zf = true then BitVec.ofNat 16 o.value else s.pc + 1 := by
  obtain ⟨a, ha, h⟩ := bind_ok h
  cases h
  rw [← jumpTarget_ok ha, State.retire_pc, State.nextPc_eq]

theorem jnzEffect_pc {o : Operand} {s t : State} (h : jnzEffect o s = .ok t) :
    t.pc = if s.flags.zf = true then s.pc + 1 else BitVec.ofNat 16 o.value := by
  obtain ⟨a, ha, h⟩ := bind_ok h
  cases h
  rw [← jumpTarget_ok ha, State.retire_pc, State.nextPc_eq]

/-- A counted step took no fault, so it is the instruction's completed effect (10_state.md R31; 60_exceptions.md R242). -/
theorem effectOf_ok_of_counted {i : Instr} {s t : State} (h : exec i s = .next t)
    (hcount : t.stepCount = s.stepCount + 1) : effectOf i.op i.operand s = .ok t := by
  rcases exec_cases h with ⟨r, rfl⟩ | ⟨-, he⟩
  · rw [State.raise_stepCount] at hcount
    omega
  · exact he

/-- Settles O26: a counted step is the completed effect of its opcode, whose next PC is known. -/
theorem nextPcOfEveryInstruction : Obligations.NextPcOfEveryInstruction := by
  unfold Obligations.NextPcOfEveryInstruction
  intro i s t h hcount
  have he := effectOf_ok_of_counted h hcount
  cases hop : i.op <;> rw [hop] at he
  case halt => exact haltEffect_pc he
  case jmp => exact jmpEffect_pc he
  case jz => exact jzEffect_pc he
  case jnz => exact jnzEffect_pc he
  all_goals exact effectOf_pc_of_access (by decide) he

/-! ### The flag function on the unmasked result (R190) -/

theorem trunc16_eq_zero_iff (r : Int) : trunc16 r = 0 ↔ r % 65536 = 0 := by
  rw [← trunc16_toNat, Int.natCast_eq_zero, ← BitVec.toNat_inj]
  rfl

theorem bit15_iff (r : Int) : bit15 r = true ↔ 32768 ≤ r % 65536 := by
  rw [bit15_eq, decide_eq_true_iff, ← trunc16_toNat]
  norm_cast

/-- Settles O14: ZF and SF see the result through its truncation, CF and OF compare it unmasked. -/
theorem flagFunctionOfTheUnmaskedResult : Obligations.FlagFunctionOfTheUnmaskedResult := by
  unfold Obligations.FlagFunctionOfTheUnmaskedResult
  refine fun r => ⟨?zf, bit15_iff r, ?cf, ?of⟩
  case zf => exact decide_eq_true_iff.trans (trunc16_eq_zero_iff r)
  case cf => exact decide_eq_true_iff
  case of => exact decide_eq_true_iff

/-! ### The step of a halted machine (R181) -/

theorem step_of_halted {s : State} (h : s.halted = true) : step s = .refused .halted := if_pos h

/-- Settles O32: the refusal is returned as Fail, and leaves the state it was asked in. -/
theorem haltedStepFailsAndChangesNothing : Obligations.HaltedStepFailsAndChangesNothing := by
  unfold Obligations.HaltedStepFailsAndChangesNothing
  intro s h
  have hs := step_of_halted h
  refine ⟨hs, ?fail, ?unchanged⟩
  case fail => rw [stepReturn, hs, returned]
  case unchanged => rw [stepped, hs]

end Sys2Proof.Machine
end

section
/-! SUPPORT. The codec both ways (30_encoding.md R90, R92): one equivalence between a word's verdict and its number carries
both round trips, and the two fields alone decide every verdict. -/

namespace Sys2Proof

/-! ### The verdict of a word -/

/-- A word decodes to `i` exactly when it is, as a number, `i`'s opcode in bits 15:12 above its mode's offset plus its
value in bits 11:0. -/
theorem decode_eq_valid_iff {w : Word} {i : Instr} :
    decode w = .valid i ↔ w.toNat = i.op.code * 4096 + (i.operand.mode.offset + i.operand.value) := by
  constructor
  · intro h
    unfold decode at h
    split at h
    next => cases h
    next op hop =>
      split at h
      next => cases h
      next o ho =>
        cases h
        have hcode : op.code = w.toNat / 4096 := (Opcode.code_of_ofCode hop).trans (opcodeField_toNat w)
        have hfield := classify_some ho
        rw [operandField_toNat] at hfield
        rw [Instr.op_of, Instr.operand_of]
        omega
  · intro h
    have hfit := Mode.offset_add_lt i.operand.value_lt
    have hop : Opcode.ofCode (opcodeField w).toNat = some i.op := by
      rw [opcodeField_toNat, show w.toNat / 4096 = i.op.code by omega, Opcode.ofCode_code]
    have ho : classify (operandField w) = some i.operand :=
      classify_of _ _ (by rw [operandField_toNat]; omega)
    simp only [decode, hop, ho, Instr.of_op_operand]

theorem decode_reserved {w : Word} (hop : (opcodeField w).toNat ≤ 8) (hfield : 1056 ≤ (operandField w).toNat) :
    decode w = .invalid .reservedOperand := by
  obtain ⟨op, hop⟩ := Option.ne_none_iff_exists'.mp (mt (Opcode.ofCode_eq_none_iff _).mp (Nat.not_lt_of_le hop))
  simp only [decode, hop, (classify_none_iff _).mpr hfield]

theorem exists_decode_valid {w : Word} (hop : (opcodeField w).toNat ≤ 8) (hfield : (operandField w).toNat < 1056) :
    ∃ i, decode w = .valid i := by
  obtain ⟨op, hop⟩ := Option.ne_none_iff_exists'.mp (mt (Opcode.ofCode_eq_none_iff _).mp (Nat.not_lt_of_le hop))
  obtain ⟨o, ho⟩ := Option.ne_none_iff_exists'.mp (mt (classify_none_iff _).mp (Nat.not_le_of_lt hfield))
  exact ⟨Instr.of op o, by simp only [decode, hop, ho]⟩

/-- Settles O3: the opcode field is the word divided by 4096 and the operand field its remainder. -/
theorem decodeVerdictByWordRange : Obligations.DecodeVerdictByWordRange := by
  unfold Obligations.DecodeVerdictByWordRange
  intro w
  have hop := opcodeField_toNat w
  have hfield := operandField_toNat w
  refine ⟨fun h => ?unknown, fun h h' => ?reserved, fun h h' => ?valid⟩
  case unknown => exact decode_of_opcodeField_gt (by omega)
  case reserved => exact decode_reserved (by omega) (by omega)
  case valid =>
    obtain ⟨i, hi⟩ := exists_decode_valid (w := w) (by omega) (by omega)
    have hw := decode_eq_valid_iff.mp hi
    have hfit := Mode.offset_add_lt i.operand.value_lt
    exact ⟨i, hi, by omega, by omega⟩

/-! ### The two round trips (R92) -/

@[simp] theorem decode_encode (i : Instr) : decode (encode i) = .valid i :=
  decode_eq_valid_iff.mpr (Laws.EncodeLayout.general i)

/-- Settles O2: a word that decodes to `i` is the number `i` encodes to. -/
theorem encodeOfDecodeIsIdentity : Obligations.EncodeOfDecodeIsIdentity := by
  unfold Obligations.EncodeOfDecodeIsIdentity
  intro w i h
  have hi : (encode i).toNat = i.op.code * 4096 + (i.operand.mode.offset + i.operand.value) :=
    Laws.EncodeLayout.general i
  exact BitVec.eq_of_toNat_eq (hi.trans (decode_eq_valid_iff.mp h).symm)

theorem encode_of (op : Opcode) (o : Operand) : encode (Instr.of op o) = packWord op.code o.mode o.value := by
  rw [encode, Instr.op_of, Instr.operand_of]

/-- A raw triple in range encodes to the word of the instruction it names (R88). -/
theorem encodeTriple_of_inRange (op : Opcode) {m : Mode} {v : Int} (hlo : 0 ≤ v) (hhi : v < m.rangeSize) :
    encodeTriple op.code m v = .ok (encode (Instr.of op (Operand.ofValue m v.toNat))) := by
  have hv : v.toNat < m.rangeSize := by omega
  rw [encode_of, Operand.mode_ofValue, Operand.value_ofValue hv, encodeTriple, if_neg (not_not.mpr op.code_le),
    if_neg (not_not.mpr ⟨hlo, hhi⟩)]

theorem tripleWellFormed_iff {op : Nat} {m : Mode} {v : Int} :
    tripleWellFormed op m v = true ↔ op ≤ 8 ∧ 0 ≤ v ∧ v < m.rangeSize := by
  simp only [tripleWellFormed, Bool.and_eq_true, decide_eq_true_eq, and_assoc]

/-- Settles O1: an instruction's word by the equivalence; a raw triple is the triple of one instruction. -/
theorem decodeOfEncodeIsIdentity : Obligations.DecodeOfEncodeIsIdentity := by
  unfold Obligations.DecodeOfEncodeIsIdentity
  refine ⟨decode_encode, fun op m v h => ?triple⟩
  case triple =>
    obtain ⟨hop, hlo, hhi⟩ := tripleWellFormed_iff.mp h
    obtain ⟨o, ho⟩ := Option.ne_none_iff_exists'.mp (mt (Opcode.ofCode_eq_none_iff op).mp (Nat.not_lt_of_le hop))
    obtain rfl := Opcode.code_of_ofCode ho
    refine ⟨_, _, encodeTriple_of_inRange o hlo hhi, decode_encode _, ?_, ?_, ?_⟩
    · rw [Instr.op_of]
    · rw [Instr.operand_of, Operand.mode_ofValue]
    · rw [Instr.operand_of, Operand.value_ofValue (by omega), Int.toNat_of_nonneg hlo]

/-! ### Mnemonics (R89), and words written out -/

/-- The nine mnemonics differ, so a text names at most one opcode. -/
theorem Opcode.ofMnemonic_eq_some_iff {t : Text} {op : Opcode} :
    Opcode.ofMnemonic t = some op ↔ upperCase t = op.mnemonic := by
  constructor
  · intro h
    unfold Opcode.ofMnemonic at h
    have hop := List.find?_some h
    exact (beq_iff_eq.mp hop).symm
  · intro h
    rw [Opcode.ofMnemonic, h]
    cases op <;> rfl

@[simp] theorem Opcode.ofMnemonic_mnemonic (op : Opcode) : Opcode.ofMnemonic op.mnemonic = some op := by
  rw [Opcode.ofMnemonic_eq_some_iff]
  cases op <;> rfl

theorem Opcode.mnemonic_injective : Function.Injective Opcode.mnemonic := fun op op' h =>
  Option.some.inj (by rw [← Opcode.ofMnemonic_mnemonic op, h, Opcode.ofMnemonic_mnemonic])

/-- Settles O7: a text that upper-cases to a mnemonic names that opcode. -/
theorem mnemonicsEncodeInEitherCase : Obligations.MnemonicsEncodeInEitherCase := by
  unfold Obligations.MnemonicsEncodeInEitherCase
  intro t op m v h
  simp only [encodeMnemonic, Opcode.ofMnemonic_eq_some_iff.mpr h]

/-- Settles O8: the eleven words are closed terms, so decoding them is a computation. -/
theorem writtenWordsDecode : Obligations.WrittenWordsDecode := by
  unfold Obligations.WrittenWordsDecode
  decide

end Sys2Proof
end

section
/-! SUPPORT. Reset, memory accesses, operand places and truncation: each shared operation against the spec's own words. -/

namespace Sys2Proof.Machine

/-! ### Reset (70_reset_and_hazards.md) -/

theorem getReg_reset (k : BitVec 4) : State.reset.getReg k = 0 := by
  simp only [State.getReg, State.reset, Vector.getElem_replicate]

/-- Settles O9: every field by definition, every register as the replicated 0, memory as the empty list. -/
theorem resetIsAsConstructed : Obligations.ResetIsAsConstructed := by
  unfold Obligations.ResetIsAsConstructed
  exact ⟨rfl, rfl, rfl, getReg_reset, rfl, rfl, rfl, rfl, Memory.read_nil⟩

theorem fullWipe_eq_reset (s : State) : fullWipe s = State.reset := rfl

theorem visible_of_not_halted {s : State} (h : s.halted = false) : visible false s = .ready := by
  simp [visible, h]

/-- Settles O10: a soft reset is State.reset with the memory it found, and a full wipe empties that too. -/
theorem resetsFromEveryState : Obligations.ResetsFromEveryState := by
  unfold Obligations.ResetsFromEveryState
  exact fun s => ⟨fun a => by rw [softReset_mem], rfl, fullWipe_eq_reset s, visible_of_not_halted rfl⟩

/-! ### One word of memory (20_memory.md R53, R54, R63) -/

theorem memRead_of_lt {a : Word} (h : a.toNat < Config.memWords) (s : State) :
    memRead a s = .ok (s.mem.read a.toNat) := by
  rw [memRead_eq, if_pos h]

theorem memRead_of_not_lt {a : Word} (h : ¬ a.toNat < Config.memWords) (s : State) :
    memRead a s = .error (.outOfBounds a) := by
  rw [memRead_eq, if_neg h]

theorem memWrite_of_lt {a : Word} (h : a.toNat < Config.memWords) (v : Word) (s : State) :
    memWrite a v s = .ok { s with mem := s.mem.write a.toNat v } := by
  rw [memWrite_eq, if_pos h]

theorem memWrite_of_not_lt {a : Word} (h : ¬ a.toNat < Config.memWords) (v : Word) (s : State) :
    memWrite a v s = .error (.outOfBounds a) := by
  rw [memWrite_eq, if_neg h]

/-- Settles O12: in bounds the write is `Memory.write`, whose reads and canonical form are known; out of bounds both fault. -/
theorem memoryAccessReadsAndWritesOneWord : Obligations.MemoryAccessReadsAndWritesOneWord := by
  unfold Obligations.MemoryAccessReadsAndWritesOneWord
  refine fun s a v => ⟨fun h => ?inside, fun h => ?outside⟩
  case inside =>
    have ha : a.toNat < Config.memWords := Nat.lt_succ_of_le h
    refine ⟨memRead_of_lt ha s, _, memWrite_of_lt ha v s, ?_, fun b hb => Memory.read_write_ne _ hb v, rfl,
      fun hm => Memory.wf_write hm ha v⟩
    rw [memRead_of_lt ha, Memory.read_write_same]
  case outside =>
    have ha : ¬ a.toNat < Config.memWords := Nat.not_lt_of_le h
    exact ⟨memRead_of_not_lt ha s, memWrite_of_not_lt ha v s⟩

/-! ### The canonical form determines the memory -/

@[simp] theorem Memory.read_cons_same (a : Nat) (v : Word) (m : Memory) : Memory.read ((a, v) :: m) a = v := by
  simp only [Memory.read, if_true]

theorem Memory.read_cons_ne {a b : Nat} (h : b ≠ a) (v : Word) (m : Memory) : Memory.read ((a, v) :: m) b = m.read b := by
  simp only [Memory.read, h.symm, if_false]

theorem Memory.le_of_read_ne_zero {lo a : Nat} {m : Memory} (hm : Memory.wfFrom lo m = true) (h : m.read a ≠ 0#16) :
    lo ≤ a :=
  Nat.le_of_not_lt fun hlt => h (Memory.read_below hm hlt)

/-- A canonical memory that reads 0 everywhere is empty: the word it lists first is not 0. -/
theorem Memory.eq_nil_of_read_eq_zero {lo : Nat} {m : Memory} (hm : Memory.wfFrom lo m = true)
    (h : ∀ a, m.read a = 0#16) : m = [] := by
  cases m with
  | nil => rfl
  | cons c m =>
    obtain ⟨a, v⟩ := c
    obtain ⟨-, -, hv, -⟩ := Memory.wfFrom_cons.mp hm
    exact absurd (Memory.read_cons_same a v m ▸ h a) hv

/-- The least listed address is the least one that does not read as 0, so memories that read alike list it both, with the
same word, and their tails read alike again. -/
theorem Memory.eq_of_read_eq {lo : Nat} {m m' : Memory} (hm : Memory.wfFrom lo m = true)
    (hm' : Memory.wfFrom lo m' = true) (h : ∀ a, m.read a = m'.read a) : m = m' := by
  induction m generalizing lo m' with
  | nil => exact (Memory.eq_nil_of_read_eq_zero hm' fun a => (h a).symm).symm
  | cons c m ih =>
    cases m' with
    | nil => exact Memory.eq_nil_of_read_eq_zero hm h
    | cons c' m' =>
      obtain ⟨a, v⟩ := c
      obtain ⟨a', v'⟩ := c'
      obtain ⟨-, ha, hv, htail⟩ := Memory.wfFrom_cons.mp hm
      obtain ⟨-, ha', hv', htail'⟩ := Memory.wfFrom_cons.mp hm'
      have hle : a' ≤ a := by
        refine Memory.le_of_read_ne_zero (Memory.wfFrom_cons.mpr ⟨le_rfl, ha', hv', htail'⟩) ?_
        rwa [← h a, Memory.read_cons_same]
      have hge : a ≤ a' := by
        refine Memory.le_of_read_ne_zero (Memory.wfFrom_cons.mpr ⟨le_rfl, ha, hv, htail⟩) ?_
        rwa [h a', Memory.read_cons_same]
      obtain rfl : a = a' := le_antisymm hge hle
      have hword : v = v' := by simpa only [Memory.read_cons_same] using h a
      have hrest : m = m' := by
        refine ih htail htail' fun b => ?_
        by_cases hb : b = a
        · rw [hb, Memory.read_below htail (Nat.lt_succ_self a), Memory.read_below htail' (Nat.lt_succ_self a)]
        · simpa only [Memory.read_cons_ne hb] using h b
      rw [hword, hrest]

/-- Settles O13: outside 0..4095 a canonical memory reads as 0, so the two read alike everywhere. -/
theorem canonicalMemoriesReadAlikeOnlyIfEqual : Obligations.CanonicalMemoriesReadAlikeOnlyIfEqual := by
  unfold Obligations.CanonicalMemoriesReadAlikeOnlyIfEqual
  intro m m' hm hm' h
  refine Memory.eq_of_read_eq hm hm' fun a => ?_
  by_cases ha : a ≤ 4095
  · exact h a ha
  · have hout : Config.memWords ≤ a := Nat.lt_of_not_le ha
    rw [Memory.read_outside hm hout, Memory.read_outside hm' hout]

/-! ### The place of an operand (40_engine.md R191, R192) -/

theorem locate_direct (a : BitVec 8) (s : State) : locate (.direct a) s = .ok (.memory (a.setWidth 16)) := rfl

theorem locate_indirect (a : BitVec 8) (s : State) : locate (.indirect a) s = .ok (.memory (s.mem.read a.toNat)) := by
  simp only [locate, memRead_byte]
  rfl

theorem locate_immediate (n : BitVec 9) (s : State) : locate (.immediate n) s = .ok (.literal (n.setWidth 16)) := rfl

theorem locate_register (k : BitVec 4) (s : State) : locate (.register k) s = .ok (.register k) := rfl

theorem locate_registerIndirect (k : BitVec 4) (s : State) :
    locate (.registerIndirect k) s = .ok (.memory (s.getReg k)) := rfl

/-- Settles O11: one equation per mode. -/
theorem operandsNameTheirPlaces : Obligations.OperandsNameTheirPlaces := by
  unfold Obligations.OperandsNameTheirPlaces
  simp only [BitVec.ofNat_toNat]
  exact fun s => ⟨fun a => locate_direct a s, fun a => locate_indirect a s, fun n => locate_immediate n s,
    fun k => locate_register k s, fun k => locate_registerIndirect k s⟩

/-! ### Truncation (00_scope.md R11) -/

/-- Settles O15: a Word is a remainder modulo 65536, and the truncated result is the remainder of the result. -/
theorem truncationIsTheCongruentWord : Obligations.TruncationIsTheCongruentWord := by
  unfold Obligations.TruncationIsTheCongruentWord
  intro r w
  have hr := trunc16_toNat r
  have hw := w.isLt
  rw [← BitVec.toNat_inj]
  omega

end Sys2Proof.Machine
end

section
/-! SUPPORT. What each instruction does (41_data_transfer.md to 43_control.md): `exec` is the opcode's effect where the mode is
legal, the effect of an operand that names a word is known, and what is left is truncation and the flag function on the
exact result. -/

namespace Sys2Proof.Machine

open Sys2Proof.Claims

/-! ### The three answers of an instruction (40_engine.md R184, R193) -/

theorem exec_of_effect_ok {op : Opcode} {o : Operand} {s t : State} (hl : legalMode op o.mode = true)
    (he : effectOf op o s = .ok t) : exec (Instr.of op o) s = .next t := by
  simp only [exec_of, perform, hl, he, if_true]

theorem exec_of_effect_error {op : Opcode} {o : Operand} {s : State} {r : FaultRecord} (hl : legalMode op o.mode = true)
    (he : effectOf op o s = .error r) : exec (Instr.of op o) s = .next (s.raise r) := by
  simp only [exec_of, perform, hl, he, if_true]

theorem exec_of_illegal {op : Opcode} {o : Operand} {s : State} (hl : legalMode op o.mode = false) :
    exec (Instr.of op o) s = .next (s.raise (.plain .illegalAddressingMode)) := by
  simp only [exec_of, perform, hl, Bool.false_eq_true, if_false]

/-! ### The operand's word, or its address out of bounds (R191, R192) -/

theorem valueAt_of_operandIs {s : State} {v : Word} {o : Operand} (h : OperandIs s v o) : valueAt o s = .ok v := by
  cases o with
  | direct a => rw [valueAt_direct]; exact congrArg _ h
  | indirect a =>
    obtain ⟨hb, hv⟩ := h
    rw [valueAt_indirect, memRead_of_lt (Nat.lt_succ_of_le hb), hv]
  | immediate n =>
    have hn : v = n.setWidth 16 := h.trans (BitVec.ofNat_toNat 16 n)
    rw [valueAt_immediate, hn]
  | register k => rw [valueAt_register]; exact congrArg _ h
  | registerIndirect k =>
    obtain ⟨hb, hv⟩ := h
    rw [valueAt_registerIndirect, memRead_of_lt (Nat.lt_succ_of_le hb), hv]

/-- Only a pointer or a register can hold an address above 4095: a direct address has 8 bits. -/
theorem operandOut_iff {s : State} {a : Word} {o : Operand} :
    OperandOut s a o ↔ locate o s = .ok (.memory a) ∧ ¬ a.toNat < Config.memWords := by
  cases o with
  | direct p =>
    simp only [OperandOut, locate_direct, Except.ok.injEq, Place.memory.injEq, false_iff, not_and, not_not]
    rintro rfl
    exact (inBounds_iff _).mp (inBounds_setWidth8 p)
  | immediate n => simp only [OperandOut, locate_immediate, Except.ok.injEq, reduceCtorEq, false_and]
  | register k => simp only [OperandOut, locate_register, Except.ok.injEq, reduceCtorEq, false_and]
  | indirect p => simp only [OperandOut, locate_indirect, Except.ok.injEq, Place.memory.injEq, not_lt, Nat.succ_le_iff]
  | registerIndirect k =>
    simp only [OperandOut, locate_registerIndirect, Except.ok.injEq, Place.memory.injEq, not_lt, Nat.succ_le_iff]

theorem valueAt_of_operandOut {s : State} {a : Word} {o : Operand} (h : OperandOut s a o) :
    valueAt o s = .error (.outOfBounds a) := by
  obtain ⟨hp, ha⟩ := operandOut_iff.mp h
  rw [valueAt, hp]
  exact memRead_of_not_lt ha s

theorem storeTo_of_memory {o : Operand} {s : State} {a : Word} (hp : locate o s = .ok (.memory a)) (x : Word) :
    storeTo o x s = memWrite a x s := by
  rw [storeTo, hp]
  rfl

/-! ### Truncation and flags of the exact results (R189, R190) -/

theorem trunc16_add (a b : Word) : trunc16 ((a.toNat : Int) + b.toNat) = a + b := by
  rw [← BitVec.toNat_inj, BitVec.toNat_add]
  have h := trunc16_toNat ((a.toNat : Int) + b.toNat)
  omega

theorem trunc16_sub (a b : Word) : trunc16 ((a.toNat : Int) - b.toNat) = a - b := by
  rw [← BitVec.toNat_inj, BitVec.toNat_sub]
  have h := trunc16_toNat ((a.toNat : Int) - b.toNat)
  have hb := b.isLt
  omega

/-- The flag function with ZF and SF read off the truncated result. -/
theorem flagsOf_eq (r : Int) : flagsOf r =
    { zf := decide (trunc16 r = 0)
      sf := decide (32768 ≤ (trunc16 r).toNat)
      cf := decide (r < 0 ∨ r > 65535)
      of := decide (r < -32768 ∨ r > 32767) } := by
  rw [flagsOf, bit15_eq]

theorem flagsOf_word (v : Word) : flagsOf v.toNat =
    { zf := decide (v = 0), sf := decide (32768 ≤ v.toNat), cf := false, of := decide (32767 < v.toNat) } := by
  have hv := v.isLt
  have hcf : ¬ ((v.toNat : Int) < 0 ∨ (v.toNat : Int) > 65535) := by omega
  have hof : ((v.toNat : Int) < -32768 ∨ (v.toNat : Int) > 32767) ↔ 32767 < v.toNat := by omega
  rw [flagsOf_eq, trunc16_natCast, BitVec.ofNat_toNat, BitVec.setWidth_eq]
  simp only [hcf, hof, decide_false]

theorem flagsOf_add (a b : Word) : flagsOf ((a.toNat : Int) + b.toNat) =
    { zf := decide (a.toNat + b.toNat = 0 ∨ a.toNat + b.toNat = 65536)
      sf := decide (32768 ≤ (a + b).toNat)
      cf := decide (65535 < a.toNat + b.toNat)
      of := decide (32767 < a.toNat + b.toNat) } := by
  have ha := a.isLt
  have hb := b.isLt
  have hzf : a + b = 0 ↔ a.toNat + b.toNat = 0 ∨ a.toNat + b.toNat = 65536 := by bv_omega
  have hcf : ((a.toNat : Int) + b.toNat < 0 ∨ (a.toNat : Int) + b.toNat > 65535) ↔ 65535 < a.toNat + b.toNat := by omega
  have hof : ((a.toNat : Int) + b.toNat < -32768 ∨ (a.toNat : Int) + b.toNat > 32767) ↔ 32767 < a.toNat + b.toNat := by
    omega
  rw [flagsOf_eq, trunc16_add]
  simp only [hzf, hcf, hof]

theorem flagsOf_sub (a b : Word) : flagsOf ((a.toNat : Int) - b.toNat) =
    { zf := decide (a = b)
      sf := decide (32768 ≤ (a - b).toNat)
      cf := decide (a.toNat < b.toNat)
      of := decide ((a.toNat : Int) - b.toNat < -32768 ∨ 32767 < (a.toNat : Int) - b.toNat) } := by
  have ha := a.isLt
  have hzf : a - b = 0 ↔ a = b := by bv_omega
  have hcf : ((a.toNat : Int) - b.toNat < 0 ∨ (a.toNat : Int) - b.toNat > 65535) ↔ a.toNat < b.toNat := by omega
  rw [flagsOf_eq, trunc16_sub]
  simp only [hzf, hcf, gt_iff_lt]

/-! ### The instructions that read their operand (R210, R220 to R222) -/

/-- The effect of LOAD on the word its operand names. -/
theorem effectOf_load_of_value {o : Operand} {s : State} {v : Word} (hv : valueAt o s = .ok v) :
    effectOf .load o s = .ok (((s.setAcc v).setFlags (flagsOf v.toNat)).retire s.nextPc) := by
  rw [effectOf, loadEffect, hv]
  rfl

theorem effectOf_add_of_value {o : Operand} {s : State} {v : Word} (hv : valueAt o s = .ok v) :
    effectOf .add o s = .ok (((s.setAcc (trunc16 ((s.acc.toNat : Int) + v.toNat))).setFlags
      (flagsOf ((s.acc.toNat : Int) + v.toNat))).retire s.nextPc) := by
  rw [effectOf, addEffect, hv]
  rfl

theorem effectOf_sub_of_value {o : Operand} {s : State} {v : Word} (hv : valueAt o s = .ok v) :
    effectOf .sub o s = .ok (((s.setAcc (trunc16 ((s.acc.toNat : Int) - v.toNat))).setFlags
      (flagsOf ((s.acc.toNat : Int) - v.toNat))).retire s.nextPc) := by
  rw [effectOf, subEffect, hv]
  rfl

theorem effectOf_cmp_of_value {o : Operand} {s : State} {v : Word} (hv : valueAt o s = .ok v) :
    effectOf .cmp o s = .ok ((s.setFlags (flagsOf ((s.acc.toNat : Int) - v.toNat))).retire s.nextPc) := by
  rw [effectOf, cmpEffect, hv]
  rfl

/-- Settles O16: the operand's word goes to ACC, and the flags are those of a Word. -/
theorem loadCompletes : Obligations.LoadCompletes := by
  unfold Obligations.LoadCompletes
  intro s o v h
  rw [exec_of_effect_ok rfl (effectOf_load_of_value (valueAt_of_operandIs h)), flagsOf_word]
  rfl

/-- Settles O19: ACC gets the truncated sum, and the flags see the exact one. -/
theorem addCompletes : Obligations.AddCompletes := by
  unfold Obligations.AddCompletes
  intro s o v h
  rw [exec_of_effect_ok rfl (effectOf_add_of_value (valueAt_of_operandIs h)), flagsOf_add, trunc16_add]
  rfl

/-- Settles O20: ACC gets the truncated difference, and the flags see the exact one. -/
theorem subCompletes : Obligations.SubCompletes := by
  unfold Obligations.SubCompletes
  intro s o v h
  rw [exec_of_effect_ok rfl (effectOf_sub_of_value (valueAt_of_operandIs h)), flagsOf_sub, trunc16_sub]
  rfl

/-- Settles O21: the flags see the exact difference, and ACC is not written. -/
theorem cmpCompletes : Obligations.CmpCompletes := by
  unfold Obligations.CmpCompletes
  intro s o v h
  rw [exec_of_effect_ok rfl (effectOf_cmp_of_value (valueAt_of_operandIs h)), flagsOf_sub]
  rfl

/-! ### STORE (R211) -/

/-- A located word of memory is the place of a mode that STORE allows. -/
theorem legalMode_store_of_memory {o : Operand} {s : State} {ea : Word} (hp : locate o s = .ok (.memory ea)) :
    legalMode .store o.mode = true := by
  cases o with
  | immediate n => cases hp
  | direct _ | indirect _ | register _ | registerIndirect _ => rfl

/-- STORE to an existing word of memory: the write, then the end of the step. -/
theorem exec_store_memory {s : State} {o : Operand} {ea : Word} (hp : locate o s = .ok (.memory ea))
    (hea : ea.toNat < Config.memWords) :
    exec (Instr.of .store o) s = .next ({ s with mem := s.mem.write ea.toNat s.acc }.retire s.nextPc) := by
  refine exec_of_effect_ok (legalMode_store_of_memory hp) ?_
  rw [effectOf, storeEffect, storeTo_of_memory hp, memWrite_of_lt hea]
  rfl

/-- Settles O17: the located word is written, and memory reads so after the write. -/
theorem storeToMemoryCompletes : Obligations.StoreToMemoryCompletes := by
  unfold Obligations.StoreToMemoryCompletes
  intro s o ea hp hea
  exact ⟨_, exec_store_memory hp (Nat.lt_succ_of_le hea), Memory.read_write_same _ _ _,
    fun b hb => Memory.read_write_ne _ hb _, rfl⟩

/-- Settles O18: the register is written, and the registers read so after the write. -/
theorem storeToRegisterCompletes : Obligations.StoreToRegisterCompletes := by
  unfold Obligations.StoreToRegisterCompletes
  intro s k
  refine ⟨(s.setReg k s.acc).retire s.nextPc, rfl, ?_, fun j hj => ?_, rfl⟩
  · rw [State.getReg_retire, State.getReg_setReg_same]
  · rw [State.getReg_retire, State.getReg_setReg_ne s hj]

/-! ### Control (R231 to R236) -/

/-- Settles O22: a direct jump's target is its address, and the effect writes PC and counts the step. -/
theorem directJumpsComplete : Obligations.DirectJumpsComplete := by
  unfold Obligations.DirectJumpsComplete
  simp only [BitVec.ofNat_toNat]
  exact fun s a => ⟨rfl, rfl, rfl⟩

/-- Settles O23: every mode is legal for HALT, whose effect does not look at the operand. -/
theorem haltCompletes : Obligations.HaltCompletes := by
  unfold Obligations.HaltCompletes
  exact fun s o => exec_of_effect_ok rfl rfl

/-! ### The fault entries of an instruction (R193; 60_exceptions.md R242) -/

/-- Settles O24: the modes named are the illegal ones, and the legality check comes before the effect. -/
theorem illegalModesTakeTheirFault : Obligations.IllegalModesTakeTheirFault := by
  unfold Obligations.IllegalModesTakeTheirFault
  intro s op o h
  refine exec_of_illegal ?_
  rcases h with ⟨rfl, hm⟩ | ⟨hop, hm⟩
  · rw [hm]; rfl
  · rcases hop with rfl | rfl | rfl <;> exact beq_false_of_ne hm

/-- The five instructions that access their operand fault where its address is out of bounds. -/
theorem effectOf_of_operandOut {op : Opcode} {o : Operand} {s : State} {a : Word}
    (hop : op ∈ [Opcode.load, .store, .add, .sub, .cmp]) (h : OperandOut s a o) :
    effectOf op o s = .error (.outOfBounds a) := by
  have hvalue := valueAt_of_operandOut h
  obtain ⟨hp, ha⟩ := operandOut_iff.mp h
  cases op with
  | load => rw [effectOf, loadEffect, hvalue]; rfl
  | store => rw [effectOf, storeEffect, storeTo_of_memory hp, memWrite_of_not_lt ha]; rfl
  | add => rw [effectOf, addEffect, hvalue]; rfl
  | sub => rw [effectOf, subEffect, hvalue]; rfl
  | cmp => rw [effectOf, cmpEffect, hvalue]; rfl
  | halt | jmp | jz | jnz => simp at hop

theorem legalMode_of_operandOut {op : Opcode} {o : Operand} {s : State} {a : Word}
    (hop : op ∈ [Opcode.load, .store, .add, .sub, .cmp]) (h : OperandOut s a o) : legalMode op o.mode = true := by
  cases op with
  | store => exact legalMode_store_of_memory (operandOut_iff.mp h).1
  | load | add | sub | cmp => rfl
  | halt | jmp | jz | jnz => simp at hop

/-- Settles O25: the operand's mode is legal, and its access faults before anything is written. -/
theorem outOfBoundsOperandsTakeTheirFault : Obligations.OutOfBoundsOperandsTakeTheirFault := by
  unfold Obligations.OutOfBoundsOperandsTakeTheirFault
  intro s op o a hop h
  exact exec_of_effect_error (legalMode_of_operandOut hop h) (effectOf_of_operandOut hop h)

/-- Settles O28: `perform` answers a next state on each of its three paths. -/
theorem everyInstructionAnswersNext : Obligations.EveryInstructionAnswersNext := by
  unfold Obligations.EveryInstructionAnswersNext
  intro i s
  obtain ⟨t, ht, -⟩ := exec_next_ir i s
  exact ⟨t, ht⟩

end Sys2Proof.Machine
end

section
/-! SUPPORT. Who writes what (10_state.md R22 to R35): the completed effects fall into five shapes, and a fault is the state
before but for halted and the latch. -/

namespace Sys2Proof.Machine

open Sys2Proof.Claims

/-! ### The shapes of a completed effect -/

/-- All a completed effect can be: ACC and flags, flags alone, one destination write, halting, or a jump. -/
theorem effectOf_ok_cases {op : Opcode} {o : Operand} {s t : State} (h : effectOf op o s = .ok t) :
    ((op = .load ∨ op = .add ∨ op = .sub) ∧ ∃ v f, t = ((s.setAcc v).setFlags f).retire s.nextPc) ∨
      (op = .cmp ∧ ∃ f, t = (s.setFlags f).retire s.nextPc) ∨
      (op = .store ∧ ∃ u, storeTo o s.acc s = .ok u ∧ t = u.retire s.nextPc) ∨
      (op = .halt ∧ t = { s with halted := true }.retire s.pc) ∨
      ((op = .jmp ∨ op = .jz ∨ op = .jnz) ∧ ∃ pc, t = s.retire pc) := by
  cases op with
  | load | add | sub =>
    obtain ⟨v, -, h⟩ := bind_ok h
    cases h
    exact .inl ⟨by simp, _, _, rfl⟩
  | cmp =>
    obtain ⟨v, -, h⟩ := bind_ok h
    cases h
    exact .inr (.inl ⟨rfl, _, rfl⟩)
  | store =>
    obtain ⟨u, hu, h⟩ := bind_ok h
    cases h
    exact .inr (.inr (.inl ⟨rfl, u, hu, rfl⟩))
  | halt =>
    cases h
    exact .inr (.inr (.inr (.inl ⟨rfl, rfl⟩)))
  | jmp | jz | jnz =>
    obtain ⟨a, -, h⟩ := bind_ok h
    cases h
    exact .inr (.inr (.inr (.inr ⟨by simp, _, rfl⟩)))

/-- A completed destination write changes memory at the located address alone. -/
theorem storeTo_read_ne {o : Operand} {x : Word} {s t : State} (h : storeTo o x s = .ok t) {a : Nat}
    (hne : t.mem.read a ≠ s.mem.read a) : locate o s = .ok (.memory (BitVec.ofNat 16 a)) := by
  rcases storeTo_locate h with ⟨ea, hp, rfl⟩ | ⟨k, -, rfl⟩
  · have ha : a = ea.toNat := by
      by_contra hne'
      exact hne (Memory.read_write_ne _ hne' x)
    rw [ha, BitVec.ofNat_toNat, BitVec.setWidth_eq, hp]
  · exact absurd rfl hne

/-- A completed destination write changes the named register alone. -/
theorem storeTo_getReg_ne {o : Operand} {x : Word} {s t : State} (h : storeTo o x s = .ok t) {k : BitVec 4}
    (hne : t.getReg k ≠ s.getReg k) : o = .register k := by
  rcases storeTo_locate h with ⟨ea, -, rfl⟩ | ⟨j, ho, rfl⟩
  · exact absurd rfl hne
  · have hk : k = j := by
      by_contra hne'
      exact hne (State.getReg_setReg_ne s hne' x)
    rw [ho, hk]

/-- A destination write touches memory or the registers alone. -/
theorem storeTo_frame {o : Operand} {x : Word} {s t : State} (h : storeTo o x s = .ok t) :
    t = { s with regs := t.regs, mem := t.mem } := by
  rcases storeTo_ok h with ⟨a, -, rfl⟩ | ⟨k, -, rfl⟩ <;> rfl

/-! ### The writers, one piece of state at a time -/

section Writers

variable {op : Opcode} {o : Operand} {s t : State}

theorem effectOf_acc_writers (h : effectOf op o s = .ok t) (hne : t.acc ≠ s.acc) :
    op = .load ∨ op = .add ∨ op = .sub := by
  rcases effectOf_ok_cases h with ⟨hop, -⟩ | ⟨-, _, rfl⟩ | ⟨-, u, hu, rfl⟩ | ⟨-, rfl⟩ | ⟨-, _, rfl⟩
  · exact hop
  · exact absurd rfl hne
  · rw [storeTo_frame hu] at hne
    exact absurd rfl hne
  · exact absurd rfl hne
  · exact absurd rfl hne

theorem effectOf_flags_writers (h : effectOf op o s = .ok t) (hne : t.flags ≠ s.flags) :
    op = .load ∨ op = .add ∨ op = .sub ∨ op = .cmp := by
  rcases effectOf_ok_cases h with ⟨rfl | rfl | rfl, -⟩ | ⟨rfl, -⟩ | ⟨-, u, hu, rfl⟩ | ⟨-, rfl⟩ | ⟨-, _, rfl⟩
  · exact .inl rfl
  · exact .inr (.inl rfl)
  · exact .inr (.inr (.inl rfl))
  · exact .inr (.inr (.inr rfl))
  · rw [storeTo_frame hu] at hne
    exact absurd rfl hne
  · exact absurd rfl hne
  · exact absurd rfl hne

theorem effectOf_getReg_writers (h : effectOf op o s = .ok t) {k : BitVec 4} (hne : t.getReg k ≠ s.getReg k) :
    op = .store ∧ o = .register k := by
  rcases effectOf_ok_cases h with ⟨-, _, _, rfl⟩ | ⟨-, _, rfl⟩ | ⟨hop, u, hu, rfl⟩ | ⟨-, rfl⟩ | ⟨-, _, rfl⟩
  · exact absurd rfl hne
  · exact absurd rfl hne
  · exact ⟨hop, storeTo_getReg_ne hu hne⟩
  · exact absurd rfl hne
  · exact absurd rfl hne

theorem effectOf_mem_writers (h : effectOf op o s = .ok t) {a : Nat} (hne : t.mem.read a ≠ s.mem.read a) :
    op = .store ∧ locate o s = .ok (.memory (BitVec.ofNat 16 a)) := by
  rcases effectOf_ok_cases h with ⟨-, _, _, rfl⟩ | ⟨-, _, rfl⟩ | ⟨hop, u, hu, rfl⟩ | ⟨-, rfl⟩ | ⟨-, _, rfl⟩
  · exact absurd rfl hne
  · exact absurd rfl hne
  · exact ⟨hop, storeTo_read_ne hu hne⟩
  · exact absurd rfl hne
  · exact absurd rfl hne

theorem effectOf_halted_writers (h : effectOf op o s = .ok t) (hne : t.halted ≠ s.halted) : op = .halt := by
  rcases effectOf_ok_cases h with ⟨-, _, _, rfl⟩ | ⟨-, _, rfl⟩ | ⟨-, u, hu, rfl⟩ | ⟨hop, -⟩ | ⟨-, _, rfl⟩
  · exact absurd rfl hne
  · exact absurd rfl hne
  · rw [storeTo_frame hu] at hne
    exact absurd rfl hne
  · exact hop
  · exact absurd rfl hne

end Writers

/-- Settles O27: a fault leaves every field but halted and the latch, and a completed effect is written by its writers. -/
theorem onlyTheListedInstructionsWrite : Obligations.OnlyTheListedInstructionsWrite := by
  unfold Obligations.OnlyTheListedInstructionsWrite
  intro i s t h
  rcases exec_cases h with ⟨r, rfl⟩ | ⟨-, he⟩
  · exact ⟨fun hne => absurd rfl hne, fun hne => absurd rfl hne, fun _ hne => absurd rfl hne,
      fun _ hne => absurd rfl hne, fun _ => .inr ⟨r, rfl⟩, fun _ => ⟨r, rfl⟩, rfl, .inr ⟨r, rfl⟩⟩
  · obtain ⟨hcount, hir, hfault⟩ := effectOf_ok he
    refine ⟨effectOf_acc_writers he, effectOf_flags_writers he, fun k hne => ?reg,
      fun _ => effectOf_mem_writers he, fun hne => .inl (effectOf_halted_writers he hne),
      fun hne => absurd hfault hne, hir, .inl hcount⟩
    case reg =>
      obtain ⟨hop, ho⟩ := effectOf_getReg_writers he hne
      rw [← Instr.of_op_operand i, hop, ho]
      rfl

end Sys2Proof.Machine
end

section
/-! SUPPORT. The step (40_engine.md R180 to R194; 60_exceptions.md R242, R243): the three things an instruction can do, what
`step()` returns for each, and the fault entry. -/

namespace Sys2Proof.Machine

open Sys2Proof.Claims

/-! ### The one fault of an effect whose mode is legal (60_exceptions.md R241) -/

theorem exists_locate (o : Operand) (s : State) : ∃ p, locate o s = .ok p := by
  cases o with
  | indirect a => exact ⟨_, locate_indirect a s⟩
  | direct _ | immediate _ | register _ | registerIndirect _ => exact ⟨_, rfl⟩

theorem operandOut_of_valueAt_error {o : Operand} {s : State} {r : FaultRecord} (h : valueAt o s = .error r) :
    ∃ a, OperandOut s a o ∧ r = .outOfBounds a := by
  obtain ⟨p, hp⟩ := exists_locate o s
  rw [valueAt, hp] at h
  cases p with
  | memory a =>
    change memRead a s = .error r at h
    rw [memRead_eq] at h
    split at h
    next => cases h
    next ha =>
      cases h
      exact ⟨a, operandOut_iff.mpr ⟨hp, ha⟩, rfl⟩
  | register k => cases h
  | literal v => cases h

theorem operandOut_of_storeTo_error {o : Operand} {x : Word} {s : State} {r : FaultRecord}
    (hl : legalMode .store o.mode = true) (h : storeTo o x s = .error r) :
    ∃ a, OperandOut s a o ∧ r = .outOfBounds a := by
  obtain ⟨p, hp⟩ := exists_locate o s
  cases p with
  | memory a =>
    rw [storeTo_of_memory hp, memWrite_eq] at h
    split at h
    next => cases h
    next ha =>
      cases h
      exact ⟨a, operandOut_iff.mpr ⟨hp, ha⟩, rfl⟩
  | register k =>
    rw [storeTo, hp] at h
    cases h
  | literal v =>
    cases o with
    | immediate n => cases hl
    | indirect a => rw [locate_indirect] at hp; cases hp
    | direct _ | register _ | registerIndirect _ => cases hp

theorem jumpTarget_direct {o : Operand} (h : o.mode = .direct) : ∃ a, jumpTarget o = .ok a := by
  cases o with
  | direct a => exact ⟨_, rfl⟩
  | indirect _ | immediate _ | register _ | registerIndirect _ => cases h

/-- An effect behind a passed legality check faults only by an operand address out of bounds, and HALT never. -/
theorem effectOf_error {op : Opcode} {o : Operand} {s : State} {r : FaultRecord} (hl : legalMode op o.mode = true)
    (h : effectOf op o s = .error r) : op ≠ .halt ∧ ∃ a, OperandOut s a o ∧ r = .outOfBounds a := by
  cases op with
  | halt => cases h
  | load | add | sub | cmp =>
    rcases bind_error h with hv | ⟨v, -, h⟩
    · exact ⟨by decide, operandOut_of_valueAt_error hv⟩
    · cases h
  | store =>
    rcases bind_error h with hu | ⟨u, -, h⟩
    · exact ⟨by decide, operandOut_of_storeTo_error hl hu⟩
    · cases h
  | jmp | jz | jnz =>
    obtain ⟨a, ha⟩ := jumpTarget_direct (eq_of_beq hl)
    rcases bind_error h with ht | ⟨_, -, h⟩
    · rw [ha] at ht
      cases ht
    · cases h

/-- All an instruction does: its effect completes, or its mode is illegal, or its operand's address is out of bounds. -/
theorem exec_outcome (i : Instr) (s : State) :
    (∃ t, i.wellFormed = true ∧ effectOf i.op i.operand s = .ok t ∧ exec i s = .next t) ∨
      (i.wellFormed = false ∧ exec i s = .next (s.raise (.plain .illegalAddressingMode))) ∨
      (∃ a, i.wellFormed = true ∧ i.op ≠ .halt ∧ OperandOut s a i.operand ∧
        exec i s = .next (s.raise (.outOfBounds a))) := by
  rw [exec_eq_perform]
  rcases perform_cases i.op i.operand s (effectOf i.op i.operand s) with ⟨t, hl, he, hp⟩ | ⟨r, hl, he, hp⟩ | ⟨hl, hp⟩
  · exact .inl ⟨t, hl, he, hp⟩
  · obtain ⟨hop, a, ha, rfl⟩ := effectOf_error hl he
    exact .inr (.inr ⟨a, hl, hop, ha, hp⟩)
  · exact .inr (.inl ⟨hl, hp⟩)

/-! ### The step by the word at PC (R182, R184, R185) -/

section Step

variable {s : State} (hh : s.halted = false)
include hh

theorem step_of_pc_out (hpc : ¬ s.pc.toNat < Config.memWords) : step s = .next (s.raise (.plain .pcOutOfBounds)) := by
  rcases step_cases s with ⟨hh', -⟩ | ⟨-, -, hs⟩ | ⟨why, -, hpc', -⟩ | ⟨i, -, hpc', -⟩
  · exact absurd hh' (by simp [hh])
  · exact hs
  · exact absurd hpc' hpc
  · exact absurd hpc' hpc

theorem step_of_invalid {why : InvalidReason} (hpc : s.pc.toNat < Config.memWords)
    (hd : decode (s.mem.read s.pc.toNat) = .invalid why) :
    step s = .next ((s.loadIR (s.mem.read s.pc.toNat)).raise (undecodable why)) := by
  rcases step_cases s with ⟨hh', -⟩ | ⟨-, hpc', -⟩ | ⟨why', -, -, hd', hs⟩ | ⟨i, -, -, hd', -⟩
  · exact absurd hh' (by simp [hh])
  · exact absurd hpc hpc'
  · cases hd.symm.trans hd'
    exact hs
  · cases hd.symm.trans hd'

theorem step_of_valid {i : Instr} (hpc : s.pc.toNat < Config.memWords)
    (hd : decode (s.mem.read s.pc.toNat) = .valid i) : step s = exec i (s.loadIR (s.mem.read s.pc.toNat)) := by
  rcases step_cases s with ⟨hh', -⟩ | ⟨-, hpc', -⟩ | ⟨why, -, -, hd', -⟩ | ⟨j, -, -, hd', hs⟩
  · exact absurd hh' (by simp [hh])
  · exact absurd hpc hpc'
  · cases hd.symm.trans hd'
  · cases hd.symm.trans hd'
    exact hs

end Step

/-- Settles O31: loading IR is the whole of what a step adds to its instruction. -/
theorem stepRunsTheDecodedInstruction : Obligations.StepRunsTheDecodedInstruction := by
  unfold Obligations.StepRunsTheDecodedInstruction
  exact fun s i hh hpc hd => step_of_valid hh (Nat.lt_succ_of_le hpc) hd

/-! ### What the step returns (R180; 60_exceptions.md R243) -/

/-- A step that takes a fault returns its kind: IR may be loaded before, and step_count stays. -/
theorem stepReturn_of_raise {s u : State} {r : FaultRecord} (hs : step s = .next (u.raise r))
    (hcount : u.stepCount = s.stepCount) : stepReturn s = .fault r.kind := by
  have hne : ¬ (u.raise r).stepCount = s.stepCount + 1 := by
    rw [State.raise_stepCount, hcount]
    exact Nat.ne_of_lt (Nat.lt_succ_self _)
  simp only [stepReturn, hs, returned, hne, if_false, State.raise_fault]

theorem stepReturn_of_counted {s t : State} (hs : step s = .next t) (hcount : t.stepCount = s.stepCount + 1) :
    stepReturn s = .ok := by
  simp only [stepReturn, hs, returned, hcount, if_true]

/-- The operand's address does not depend on IR. -/
theorem operandOut_loadIR {s : State} {w a : Word} {o : Operand} :
    OperandOut (s.loadIR w) a o ↔ OperandOut s a o := by
  cases o <;> exact Iff.rfl

/-- A completed effect and an operand address out of bounds exclude each other, but for HALT. -/
theorem effectOf_ne_ok_of_operandOut {i : Instr} {s t : State} {a : Word} (hl : i.wellFormed = true)
    (hop : i.op ≠ .halt) (h : OperandOut s a i.operand) : effectOf i.op i.operand s ≠ .ok t := by
  have haccess : i.op ∈ [Opcode.load, .store, .add, .sub, .cmp] := by
    rw [Instr.wellFormed] at hl
    cases hi : i.op with
    | load | store | add | sub | cmp => simp
    | halt => exact absurd hi hop
    | jmp | jz | jnz =>
      rw [hi] at hl
      cases ho : i.operand <;> rw [ho] at hl h
      case direct => exact h.elim
      all_goals cases hl
  rw [effectOf_of_operandOut haccess h]
  exact nofun

section Return

variable {s : State} {i : Instr} (hh : s.halted = false) (hpc : s.pc.toNat < Config.memWords)
  (hd : decode (s.mem.read s.pc.toNat) = .valid i)
include hh hpc hd

theorem stepReturn_of_illegal (hl : i.wellFormed = false) : stepReturn s = .fault .illegalAddressingMode := by
  have hs := step_of_valid hh hpc hd
  rcases exec_outcome i (s.loadIR (s.mem.read s.pc.toNat)) with ⟨t, hl', -⟩ | ⟨-, he⟩ | ⟨a, hl', -⟩
  · simp [hl] at hl'
  · exact stepReturn_of_raise (hs.trans he) rfl
  · simp [hl] at hl'

theorem stepReturn_of_operandOut {a : Word} (hl : i.wellFormed = true) (hop : i.op ≠ .halt)
    (ha : OperandOut s a i.operand) : stepReturn s = .fault .memoryOutOfBounds := by
  have hs := step_of_valid hh hpc hd
  rcases exec_outcome i (s.loadIR (s.mem.read s.pc.toNat)) with ⟨t, -, he, -⟩ | ⟨hl', -⟩ | ⟨b, -, -, -, he⟩
  · exact absurd he (effectOf_ne_ok_of_operandOut hl hop (operandOut_loadIR.mpr ha))
  · simp [hl] at hl'
  · exact stepReturn_of_raise (hs.trans he) rfl

theorem stepReturn_of_in_bounds (hl : i.wellFormed = true) (ho : i.op = .halt ∨ ∀ a, ¬ OperandOut s a i.operand) :
    stepReturn s = .ok := by
  have hs := step_of_valid hh hpc hd
  rcases exec_outcome i (s.loadIR (s.mem.read s.pc.toNat)) with ⟨t, -, he, hx⟩ | ⟨hl', -⟩ | ⟨a, -, hop, ha, -⟩
  · obtain ⟨hcount, -, -⟩ := effectOf_ok he
    exact stepReturn_of_counted (hs.trans hx) hcount
  · simp [hl] at hl'
  · rcases ho with hhalt | hin
    · exact absurd hhalt hop
    · exact absurd (operandOut_loadIR.mp ha) (hin a)

end Return

/-- Settles O33: the step of each condition is known, and returns the fault it takes or counts. -/
theorem firstConditionDecidesTheStep : Obligations.FirstConditionDecidesTheStep := by
  unfold Obligations.FirstConditionDecidesTheStep
  intro s hh
  refine ⟨fun hpc => ?pc, fun hpc hop => ?opcode, fun hpc hop hfield => ?operand,
    fun i hpc hd hl => stepReturn_of_illegal hh (Nat.lt_succ_of_le hpc) hd hl,
    fun i a hpc hd hl hop ha => stepReturn_of_operandOut hh (Nat.lt_succ_of_le hpc) hd hl hop ha,
    fun i hpc hd hl ho => stepReturn_of_in_bounds hh (Nat.lt_succ_of_le hpc) hd hl ho⟩
  case pc => exact stepReturn_of_raise (step_of_pc_out hh (Nat.not_lt_of_le hpc)) rfl
  case opcode =>
    exact stepReturn_of_raise (step_of_invalid hh (Nat.lt_succ_of_le hpc) (decode_of_opcodeField_gt hop)) rfl
  case operand =>
    exact stepReturn_of_raise (step_of_invalid hh (Nat.lt_succ_of_le hpc) (decode_reserved hop hfield)) rfl

/-! ### The fault entry of a step (60_exceptions.md R242) -/

/-- Settles O34: each way a step faults raises its record on the state with the fetched word in IR, or, where PC is out of
bounds, on the state itself; a step that does not fault returns something else. -/
theorem faultEntryIsPrecise : Obligations.FaultEntryIsPrecise := by
  unfold Obligations.FaultEntryIsPrecise
  intro s k hk
  rcases step_cases s with ⟨-, hs⟩ | ⟨-, -, hs⟩ | ⟨why, -, -, -, hs⟩ | ⟨i, -, -, -, hs⟩
  · simp [stepReturn, hs, returned] at hk
  · cases hk.symm.trans (stepReturn_of_raise hs rfl)
    exact ⟨none, hs, fun _ => rfl, fun h => by cases h⟩
  · cases hk.symm.trans (stepReturn_of_raise hs rfl)
    cases why <;> exact ⟨none, hs, fun _ => rfl, fun h => by cases h⟩
  · rcases exec_outcome i (s.loadIR (s.mem.read s.pc.toNat)) with ⟨t, -, he, hx⟩ | ⟨-, hx⟩ | ⟨a, -, -, ha, hx⟩
    · obtain ⟨hcount, -, -⟩ := effectOf_ok he
      cases hk.symm.trans (stepReturn_of_counted (hs.trans hx) hcount)
    · cases hk.symm.trans (stepReturn_of_raise (hs.trans hx) rfl)
      exact ⟨none, hs.trans hx, fun _ => rfl, fun h => by cases h⟩
    · cases hk.symm.trans (stepReturn_of_raise (hs.trans hx) rfl)
      obtain ⟨-, hout⟩ := operandOut_iff.mp ha
      exact ⟨some a, hs.trans hx, fun h => absurd rfl h, fun _ => ⟨a, rfl, Nat.lt_of_not_le (mt Nat.lt_succ_of_le hout)⟩⟩

/-! ### Storing the next instruction (20_memory.md R66) -/

theorem locate_loadIR (o : Operand) (s : State) (w : Word) : locate o (s.loadIR w) = locate o s := by
  cases o with
  | indirect a => simp only [locate_indirect, State.loadIR_mem]
  | direct _ | immediate _ | register _ | registerIndirect _ => rfl

/-- Settles O35: the STORE writes ACC at PC + 1 and moves PC there, where the next fetch reads. -/
theorem storedWordIsFetchedNext : Obligations.StoredWordIsFetchedNext := by
  unfold Obligations.StoredWordIsFetchedNext
  intro s o hh hpc hd hp
  have hnext : (s.pc + 1).toNat < 4096 := by bv_omega
  have hs := step_of_valid hh (Nat.lt_succ_of_lt hpc) hd
  rw [exec_store_memory ((locate_loadIR o s _).trans hp) hnext] at hs
  exact ⟨_, hs, hh, rfl, Memory.read_write_same _ _ _⟩

end Sys2Proof.Machine
end

section
/-! SUPPORT. SF, CF and OF are never read (10_state.md R29): a relation between two states that may differ in them alone,
which every layer of a step keeps, and so every run. -/

namespace Sys2Proof.Machine

/-! ### States equal but for SF, CF and OF -/

/-- `s'` is `s` with other flags that agree on ZF. -/
def AgreeOnZf (s s' : State) : Prop :=
  ∃ f : Flags, s' = s.setFlags f ∧ f.zf = s.flags.zf

theorem AgreeOnZf.refl (s : State) : AgreeOnZf s s := ⟨s.flags, rfl, rfl⟩

/-- The same for two answers of an effect; a fault must be the same one. -/
def AgreeOnZfEffect : Except FaultRecord State → Except FaultRecord State → Prop
  | .ok t, .ok t' => AgreeOnZf t t'
  | .error r, .error r' => r = r'
  | _, _ => False

/-- A computation that may fault, gone on from in two ways that agree. -/
theorem AgreeOnZfEffect.bind {α : Type} (e : Except FaultRecord α) {f g : α → Except FaultRecord State}
    (h : ∀ a, AgreeOnZfEffect (f a) (g a)) : AgreeOnZfEffect (e >>= f) (e >>= g) := by
  cases e with
  | error r => exact rfl
  | ok a => exact h a

/-! ### Every layer of an instruction -/

/-- An operand's value depends on memory and the registers only (40_engine.md R191). -/
theorem valueAt_setFlags (o : Operand) (s : State) (f : Flags) : valueAt o (s.setFlags f) = valueAt o s := by
  cases o with
  | direct a => simp only [valueAt_direct, State.setFlags_mem]
  | indirect a => simp only [valueAt_indirect, memRead_eq, State.setFlags_mem]
  | immediate n => simp only [valueAt_immediate]
  | register k => simp only [valueAt_register, State.getReg_setFlags]
  | registerIndirect k => simp only [valueAt_registerIndirect, memRead_eq, State.setFlags_mem, State.getReg_setFlags]

theorem locate_setFlags (o : Operand) (s : State) (f : Flags) : locate o (s.setFlags f) = locate o s := by
  cases o with
  | indirect a => simp only [locate_indirect, State.setFlags_mem]
  | direct _ | immediate _ | register _ | registerIndirect _ => rfl

theorem writePlace_agree (p : Place) (x : Word) {s : State} {f : Flags} (hz : f.zf = s.flags.zf) :
    AgreeOnZfEffect (writePlace p x s) (writePlace p x (s.setFlags f)) := by
  cases p with
  | memory a =>
    simp only [writePlace, memWrite_eq]
    split
    · exact ⟨f, rfl, hz⟩
    · exact rfl
  | register k => exact ⟨f, rfl, hz⟩
  | literal v => exact rfl

theorem AgreeOnZf.retire {s s' : State} (h : AgreeOnZf s s') (pc : Word) : AgreeOnZf (s.retire pc) (s'.retire pc) := by
  obtain ⟨f, rfl, hz⟩ := h
  exact ⟨f, rfl, hz⟩

theorem storeEffect_agree (o : Operand) {s : State} {f : Flags} (hz : f.zf = s.flags.zf) :
    AgreeOnZfEffect (storeEffect o s) (storeEffect o (s.setFlags f)) := by
  have hwrite : AgreeOnZfEffect (storeTo o s.acc s) (storeTo o s.acc (s.setFlags f)) := by
    rw [storeTo, storeTo, locate_setFlags]
    exact AgreeOnZfEffect.bind _ fun p => writePlace_agree p s.acc hz
  rw [storeEffect, storeEffect, State.setFlags_acc]
  generalize storeTo o s.acc s = e at hwrite
  generalize storeTo o s.acc (s.setFlags f) = e' at hwrite
  match e, e', hwrite with
  | .ok t, .ok t', ht => exact ht.retire s.nextPc
  | .error r, .error r', hr => exact hr

/-- LOAD, ADD, SUB and CMP overwrite all four flags, STORE and HALT pass them on, and the jumps read ZF alone. -/
theorem effectOf_agree (op : Opcode) (o : Operand) {s : State} {f : Flags} (hz : f.zf = s.flags.zf) :
    AgreeOnZfEffect (effectOf op o s) (effectOf op o (s.setFlags f)) := by
  cases op with
  | halt => exact ⟨f, rfl, hz⟩
  | store => exact storeEffect_agree o hz
  | load | add | sub | cmp =>
    simp only [effectOf, loadEffect, addEffect, subEffect, cmpEffect, valueAt_setFlags]
    exact AgreeOnZfEffect.bind _ fun v => AgreeOnZf.refl _
  | jmp => exact AgreeOnZfEffect.bind _ fun a => ⟨f, rfl, hz⟩
  | jz | jnz =>
    simp only [effectOf, jzEffect, jnzEffect, State.setFlags_flags, hz]
    exact AgreeOnZfEffect.bind _ fun a => ⟨f, rfl, hz⟩

/-! ### The instruction, the step, the run -/

theorem AgreeOnZf.exec {s s' : State} (h : AgreeOnZf s s') (i : Instr) :
    ∃ t t', exec i s = .next t ∧ exec i s' = .next t' ∧ AgreeOnZf t t' := by
  obtain ⟨f, rfl, hz⟩ := h
  have he := effectOf_agree i.op i.operand hz
  rw [exec_eq_perform, exec_eq_perform]
  generalize effectOf i.op i.operand s = e at he
  generalize effectOf i.op i.operand (s.setFlags f) = e' at he
  unfold perform
  split
  next =>
    match e, e', he with
    | .ok t, .ok t', ht => exact ⟨t, t', rfl, rfl, ht⟩
    | .error r, .error _, rfl => exact ⟨_, _, rfl, rfl, f, rfl, hz⟩
  next => exact ⟨_, _, rfl, rfl, f, rfl, hz⟩

theorem stepped_of_next {s t : State} (h : step s = .next t) : stepped s = t := by
  simp only [stepped, h]

theorem stepped_of_halted {s : State} (h : s.halted = true) : stepped s = s := by
  simp only [stepped, step_of_halted h]

/-- Fetch and decode do not look at the flags, so both machines take the same path through a step. -/
theorem AgreeOnZf.stepped {s s' : State} (h : AgreeOnZf s s') : AgreeOnZf (stepped s) (stepped s') := by
  obtain ⟨f, rfl, hz⟩ := h
  rcases step_cases s with ⟨hh, -⟩ | ⟨hh, hpc, hs⟩ | ⟨why, hh, hpc, hd, hs⟩ | ⟨i, hh, hpc, hd, hs⟩
  · rw [stepped_of_halted hh, stepped_of_halted (s := s.setFlags f) hh]
    exact ⟨f, rfl, hz⟩
  · rw [stepped_of_next hs, stepped_of_next (step_of_pc_out (s := s.setFlags f) hh hpc)]
    exact ⟨f, rfl, hz⟩
  · rw [stepped_of_next hs, stepped_of_next (step_of_invalid (s := s.setFlags f) hh hpc hd)]
    exact ⟨f, rfl, hz⟩
  · have hfetched : AgreeOnZf (s.loadIR (s.mem.read s.pc.toNat)) ((s.setFlags f).loadIR (s.mem.read s.pc.toNat)) :=
      ⟨f, rfl, hz⟩
    obtain ⟨t, t', ht, ht', hagree⟩ := hfetched.exec i
    rw [stepped_of_next (hs.trans ht), stepped_of_next ((step_of_valid (s := s.setFlags f) hh hpc hd).trans ht')]
    exact hagree

theorem AgreeOnZf.runState {s s' : State} (h : AgreeOnZf s s') (n : Nat) :
    AgreeOnZf (runState n s) (runState n s') := by
  induction n generalizing s s' with
  | zero => exact h
  | succ n ih =>
    have hhalted : s'.halted = s.halted := by
      obtain ⟨f, rfl, -⟩ := h
      rfl
    simp only [Machine.runState, hhalted]
    split
    · exact h
    · exact ih h.stepped

/-- Settles O30: the run from the other flags agrees with the run from these. -/
theorem runsCannotDependOnSignCarryOverflow : Obligations.RunsCannotDependOnSignCarryOverflow := by
  unfold Obligations.RunsCannotDependOnSignCarryOverflow
  intro n s f hz
  have hagree : AgreeOnZf s (s.setFlags f) := ⟨f, rfl, hz⟩
  exact hagree.runState n

end Sys2Proof.Machine
end

section
/-! SUPPORT. The sound states (Safety.lean) under every step and every host operation, and the run loop (40_engine.md R186,
R187). -/

namespace Sys2Proof.Machine

/-! ### A fault entry that matches its state (60_exceptions.md R241, R242) -/

/-- Taking a fault that PC and IR bear out keeps a state sound. -/
theorem sound_raise {s : State} {r : FaultRecord} (hmem : s.mem.wf = true) (hpc : s.pc.toNat ≤ Config.memWords)
    (hr : r.Matches s) : (s.raise r).Sound where
  memory := hmem
  pc_le := hpc
  fault_halts := fun _ => rfl
  fault_matches := by
    intro r' h
    cases h
    exact hr
  halt_was_halt := fun _ h => by cases h

theorem undecodable_matches {s : State} {why : InvalidReason} (hpc : s.pc.toNat < Config.memWords)
    (hd : decode s.ir = .invalid why) : (undecodable why).Matches s := by
  cases why <;> exact ⟨rfl, hpc, hd⟩

/-! ### What a completed effect keeps -/

/-- The only writes of memory are those of existing addresses. -/
theorem effectOf_mem_wf {op : Opcode} {o : Operand} {s t : State} (h : effectOf op o s = .ok t) (hmem : s.mem.wf = true) :
    t.mem.wf = true := by
  rcases effectOf_ok_cases h with ⟨-, _, _, rfl⟩ | ⟨-, _, rfl⟩ | ⟨-, u, hu, rfl⟩ | ⟨-, rfl⟩ | ⟨-, _, rfl⟩
  · exact hmem
  · exact hmem
  · rcases storeTo_ok hu with ⟨a, ha, rfl⟩ | ⟨k, -, rfl⟩
    · exact Memory.wf_write hmem ha _
    · exact hmem
  · exact hmem
  · exact hmem

/-- The three PCs a completed effect can leave (R183). -/
theorem effectOf_pc_cases {op : Opcode} {o : Operand} {s t : State} (h : effectOf op o s = .ok t) :
    t.pc = s.pc ∨ t.pc = s.pc + 1 ∨ t.pc = BitVec.ofNat 16 o.value := by
  cases op with
  | halt => exact .inl (haltEffect_pc h)
  | load | store | add | sub | cmp => exact .inr (.inl (effectOf_pc_of_access (by decide) h))
  | jmp => exact .inr (.inr (jmpEffect_pc h))
  | jz =>
    rw [jzEffect_pc h]
    split
    · exact .inr (.inr rfl)
    · exact .inr (.inl rfl)
  | jnz =>
    rw [jnzEffect_pc h]
    split
    · exact .inr (.inl rfl)
    · exact .inr (.inr rfl)

/-- From a PC that fetches, the next PC is at most one past memory (10_state.md R24). -/
theorem effectOf_pc_le {op : Opcode} {o : Operand} {s t : State} (h : effectOf op o s = .ok t)
    (hpc : s.pc.toNat < Config.memWords) : t.pc.toNat ≤ Config.memWords := by
  rcases effectOf_pc_cases h with hp | hp | hp <;> rw [hp]
  · exact hpc.le
  · have hlt : s.pc.toNat < 4096 := hpc
    have hnext : (s.pc + 1).toNat ≤ 4096 := by bv_omega
    exact hnext
  · have hfit := Mode.offset_add_lt o.value_lt
    rw [BitVec.toNat_ofNat]
    exact (Nat.mod_le _ _).trans (by simp only [Config.memWords]; omega)

/-- A completed effect at a state that fetched the instruction keeps it sound: only a HALT halts, and IR still holds it. -/
theorem sound_of_effectOf_ok {i : Instr} {s t : State} (h : effectOf i.op i.operand s = .ok t) (hmem : s.mem.wf = true)
    (hpc : s.pc.toNat < Config.memWords) (hh : s.halted = false) (hfault : s.fault = none)
    (hir : decode s.ir = .valid i) : t.Sound := by
  obtain ⟨-, hirt, hfaultt⟩ := effectOf_ok h
  have hnone : t.fault = none := hfaultt.trans hfault
  exact {
    memory := effectOf_mem_wf h hmem
    pc_le := effectOf_pc_le h hpc
    fault_halts := fun hsome => by simp [hnone] at hsome
    fault_matches := fun r hr => by simp [hnone] at hr
    halt_was_halt := fun hht _ =>
      ⟨i, hirt ▸ hir, effectOf_halted_writers h fun heq => by simp [hht, hh] at heq⟩ }

/-! ### The step keeps the sound states -/

theorem State.Sound.fault_eq_none {s : State} (hs : s.Sound) (hh : s.halted = false) : s.fault = none := by
  by_contra hne
  have hhalted := hs.fault_halts (Option.isSome_iff_ne_none.mpr hne)
  simp [hh] at hhalted

/-- Each fault a step takes matches the PC and the word fetched into IR, and a completed effect keeps sound. -/
theorem State.Sound.step {s t : State} (hs : s.Sound) (ht : step s = .next t) : t.Sound := by
  rcases step_cases s with ⟨-, h⟩ | ⟨-, hpc, h⟩ | ⟨why, -, hpc, hd, h⟩ | ⟨i, hh, hpc, hd, h⟩
  · cases ht.symm.trans h
  · cases ht.symm.trans h
    exact sound_raise hs.memory hs.pc_le ⟨rfl, hpc⟩
  · cases ht.symm.trans h
    exact sound_raise hs.memory hs.pc_le (undecodable_matches hpc hd)
  · rcases exec_outcome i (s.loadIR (s.mem.read s.pc.toNat)) with ⟨u, -, he, hx⟩ | ⟨hl, hx⟩ | ⟨a, hl, -, ha, hx⟩
    · cases ht.symm.trans (h.trans hx)
      exact sound_of_effectOf_ok he hs.memory hpc hh (hs.fault_eq_none hh) hd
    · cases ht.symm.trans (h.trans hx)
      exact sound_raise hs.memory hs.pc_le ⟨rfl, hpc, i, hd, hl⟩
    · cases ht.symm.trans (h.trans hx)
      obtain ⟨-, hout⟩ := operandOut_iff.mp ha
      exact sound_raise hs.memory hs.pc_le ⟨hpc, a, i, rfl, hout, hd, hl⟩

/-- Settles O36, by the cases of a step. -/
theorem stepKeepsSound : Obligations.StepKeepsSound := by
  unfold Obligations.StepKeepsSound
  exact fun s t hs ht => hs.step ht

/-! ### The host's operations (20_memory.md R60; 70_reset_and_hazards.md R270 to R273) -/

theorem reset_sound : State.reset.Sound where
  memory := Memory.wf_nil
  pc_le := Nat.zero_le _
  fault_halts := fun h => by cases h
  fault_matches := fun _ h => by cases h
  halt_was_halt := fun h => by cases h

/-- Settles O37: nothing is listed, latched or halted. -/
theorem resetIsSound : Obligations.ResetIsSound := by
  unfold Obligations.ResetIsSound
  exact reset_sound

/-- Soundness speaks of memory by its canonical form alone. -/
theorem State.Sound.with_mem {s : State} (hs : s.Sound) {m : Memory} (hm : m.wf = true) :
    ({ s with mem := m } : State).Sound where
  memory := hm
  pc_le := hs.pc_le
  fault_halts := hs.fault_halts
  fault_matches := hs.fault_matches
  halt_was_halt := hs.halt_was_halt

theorem loadAccepted_iff {words : List Int} {start : Int} :
    loadAccepted words start = true ↔
      0 ≤ start ∧ start + words.length ≤ (Config.memWords : Int) ∧ ∀ w ∈ words, 0 ≤ w ∧ w ≤ 65535 := by
  simp only [loadAccepted, Bool.and_eq_true, decide_eq_true_eq, List.all_eq_true, and_assoc]

theorem loadProgram_eq_some_iff {words : List Int} {start : Int} {s t : State} :
    loadProgram words s start = some t ↔
      loadAccepted words start = true ∧
        t = { s with mem := writeWords (words.map (BitVec.ofInt 16)) start.toNat s.mem } := by
  unfold loadProgram
  split
  next h => simp only [Option.some.injEq, h, true_and, eq_comm]
  next h => simp only [reduceCtorEq, h, false_and]

theorem State.Sound.loadProgram {s t : State} (hs : s.Sound) {words : List Int} {start : Int}
    (h : loadProgram words s start = some t) : t.Sound := by
  obtain ⟨haccept, rfl⟩ := loadProgram_eq_some_iff.mp h
  obtain ⟨hstart, hfit, -⟩ := loadAccepted_iff.mp haccept
  refine hs.with_mem (Memory.wf_writeWords hs.memory ?_)
  rw [List.length_map]
  omega

theorem State.Sound.stepped {s : State} (hs : s.Sound) : (stepped s).Sound := by
  unfold Machine.stepped
  split
  next t ht => exact hs.step ht
  next => exact hs
  next => exact hs

/-! ### The run loop (40_engine.md R186, R187) -/

theorem runState_of_halted (n : Nat) {s : State} (h : s.halted = true) : runState n s = s := by
  cases n with
  | zero => rfl
  | succ n => simp only [runState, h, if_true]

theorem runState_succ (n : Nat) {s : State} (h : s.halted = false) : runState (n + 1) s = runState n (stepped s) := by
  simp only [runState, h, Bool.false_eq_true, if_false]

theorem runState_add (m n : Nat) (s : State) : runState (m + n) s = runState n (runState m s) := by
  induction m generalizing s with
  | zero => rw [Nat.zero_add, runState]
  | succ m ih =>
    cases h : s.halted with
    | true => simp only [runState_of_halted _ h]
    | false => rw [Nat.succ_add, runState_succ _ h, runState_succ _ h, ih]

/-- Settles O39: the loop unfolds by one step where the machine is not halted, and stays where it is. -/
theorem runsComposeAndStopWhenHalted : Obligations.RunsComposeAndStopWhenHalted := by
  unfold Obligations.RunsComposeAndStopWhenHalted
  refine ⟨fun _ => rfl, fun n s t hh ht => ?step, runState_add, fun n s => runState_of_halted n, fun _ _ => rfl⟩
  case step =>
    have hst := stepped_of_next ht
    exact ⟨hst, by rw [runState_succ n hh, hst]⟩

theorem State.Sound.runState {s : State} (hs : s.Sound) (n : Nat) : (runState n s).Sound := by
  induction n generalizing s with
  | zero => exact hs
  | succ n ih =>
    cases h : s.halted with
    | true => rwa [runState_of_halted _ h]
    | false =>
      rw [runState_succ _ h]
      exact ih hs.stepped

/-- Settles O38: a soft reset is the sound reset state with another canonical memory; runs and loads by their own lemmas. -/
theorem hostOperationsKeepSound : Obligations.HostOperationsKeepSound := by
  unfold Obligations.HostOperationsKeepSound
  exact fun s hs => ⟨reset_sound.with_mem hs.memory, fullWipe_eq_reset s ▸ reset_sound, hs.runState,
    fun _ _ _ h => hs.loadProgram h⟩

/-- A step that leaves the machine running took no fault, so it is a counted one (10_state.md R31). -/
theorem stepped_counts {s : State} (hh : s.halted = false) (hrun : (stepped s).halted = false) :
    (stepped s).stepCount = s.stepCount + 1 ∧ (stepped s).fault = s.fault := by
  rcases step_cases s with ⟨hh', -⟩ | ⟨-, -, hs⟩ | ⟨why, -, -, -, hs⟩ | ⟨i, -, -, -, hs⟩
  · simp [hh] at hh'
  · simp [stepped_of_next hs] at hrun
  · simp [stepped_of_next hs] at hrun
  · rcases exec_outcome i (s.loadIR (s.mem.read s.pc.toNat)) with ⟨t, -, he, hx⟩ | ⟨-, hx⟩ | ⟨a, -, -, -, hx⟩
    · obtain ⟨hcount, -, hfault⟩ := effectOf_ok he
      rw [stepped_of_next (hs.trans hx)]
      exact ⟨hcount, hfault⟩
    · simp [stepped_of_next (hs.trans hx)] at hrun
    · simp [stepped_of_next (hs.trans hx)] at hrun

/-- Settles O40: a run that ends running was running after each of its steps, and each of them counted. -/
theorem runsNotHaltedCountEveryStep : Obligations.RunsNotHaltedCountEveryStep := by
  unfold Obligations.RunsNotHaltedCountEveryStep
  intro n
  induction n with
  | zero => exact fun s _ => ⟨rfl, rfl⟩
  | succ n ih =>
    intro s hrun
    cases hh : s.halted with
    | true => simp [runState_of_halted _ hh, hh] at hrun
    | false =>
      rw [runState_succ n hh] at hrun ⊢
      obtain ⟨hcount, hfault⟩ := ih (stepped s) hrun
      have hstepped : (stepped s).halted = false := by
        by_contra hne
        rw [Bool.not_eq_false] at hne
        simp [runState_of_halted n hne, hne] at hrun
      obtain ⟨hone, hsame⟩ := stepped_counts hh hstepped
      exact ⟨by omega, hfault.trans hsame⟩

end Sys2Proof.Machine
end

section
/-! SUPPORT. The loaders (20_memory.md R60, R61): accepted exactly when the block fits and holds Words, and then the block and
nothing else. -/

namespace Sys2Proof.Machine

/-- An integer that is a Word is stored as itself. -/
theorem toNat_ofInt_of_word {w : Int} (hlo : 0 ≤ w) (hhi : w ≤ 65535) : ((BitVec.ofInt 16 w).toNat : Int) = w := by
  rw [BitVec.toNat_ofInt]
  omega

theorem loadProgram_isSome_iff {words : List Int} {start : Int} {s : State} :
    (loadProgram words s start).isSome = true ↔ loadAccepted words start = true := by
  rw [Option.isSome_iff_exists]
  exact ⟨fun ⟨t, ht⟩ => (loadProgram_eq_some_iff.mp ht).1, fun h => ⟨_, loadProgram_eq_some_iff.mpr ⟨h, rfl⟩⟩⟩

section Block

variable {words : List Int} {start : Int} {s t : State} (ht : loadProgram words s start = some t)
include ht

theorem loadProgram_frame : t = { s with mem := t.mem } := by
  obtain ⟨-, rfl⟩ := loadProgram_eq_some_iff.mp ht
  rfl

theorem loadProgram_read_inside {i : Nat} (h : i < words.length) :
    t.mem.read (start.toNat + i) = BitVec.ofInt 16 words[i] := by
  obtain ⟨-, rfl⟩ := loadProgram_eq_some_iff.mp ht
  have hin : start.toNat ≤ start.toNat + i ∧ start.toNat + i - start.toNat < (words.map (BitVec.ofInt 16)).length := by
    rw [List.length_map]
    omega
  rw [Memory.read_writeWords, dif_pos hin]
  simp only [Nat.add_sub_cancel_left, List.getElem_map]

theorem loadProgram_read_outside {a : Nat} (h : (a : Int) < start ∨ start + words.length ≤ a) :
    t.mem.read a = s.mem.read a := by
  obtain ⟨haccept, rfl⟩ := loadProgram_eq_some_iff.mp ht
  obtain ⟨hstart, -, -⟩ := loadAccepted_iff.mp haccept
  have hout : ¬ (start.toNat ≤ a ∧ a - start.toNat < (words.map (BitVec.ofInt 16)).length) := by
    rw [List.length_map]
    omega
  rw [Memory.read_writeWords, dif_neg hout]

end Block

/-- Settles O41: an accepted load is `writeWords`, whose reads are known, and each word of an accepted block is a Word. -/
theorem loadersWriteTheBlockOrNothing : Obligations.LoadersWriteTheBlockOrNothing := by
  unfold Obligations.LoadersWriteTheBlockOrNothing
  refine fun s words start => ⟨loadProgram_isSome_iff.trans loadAccepted_iff, rfl, fun t ht => ⟨loadProgram_frame ht,
    fun i h => ?inside, fun a h => loadProgram_read_outside ht h⟩⟩
  case inside =>
    obtain ⟨haccept, -⟩ := loadProgram_eq_some_iff.mp ht
    obtain ⟨-, -, hwords⟩ := loadAccepted_iff.mp haccept
    obtain ⟨hlo, hhi⟩ := hwords _ (List.getElem_mem h)
    rw [loadProgram_read_inside ht h, toNat_ofInt_of_word hlo hhi]

end Sys2Proof.Machine
end

section
/-! SUPPORT. What the assembler's two passes make of a source (31_assembler.md R129 to R131, R140 to R149): the label table
of first definitions, and the records with their addresses and words. -/

namespace Sys2Proof.Machine

/-! ### One statement (R132, R138, R146) -/

/-- An operand that assembles is in range, legal for the opcode, and encodes as the instruction it names. -/
theorem assembleOperand_ok {tbl : LabelTable} {line : Nat} {op : Opcode} {t : Text} {w : Word} {m : Mode} {v : Nat}
    (h : assembleOperand tbl line op t = .ok (w, m, v)) :
    v < m.rangeSize ∧ legalMode op m = true ∧ w = encode (Instr.of op (Operand.ofValue m v)) := by
  unfold assembleOperand at h
  split at h
  next => cases h
  next m' v' hresolve =>
    split at h
    next => cases h
    next hin =>
      split at h
      next => cases h
      next hlegal =>
        simp only [inRange, Bool.not_eq_true', Bool.and_eq_false_iff, decide_eq_false_iff_not, not_or, not_not] at hin
        obtain ⟨hlo, hhi⟩ := hin
        rw [encodeTriple_of_inRange op hlo hhi] at h
        cases h
        exact ⟨by omega, by simpa using hlegal, rfl⟩

/-- HALT assembles without an operand, every other mnemonic with exactly one (R136). -/
theorem checkOperandCount_ok {line : Nat} {op : Opcode} {mn : Text} {ops : List Text} {o : Option Text}
    (h : checkOperandCount line op mn ops = .ok o) : (o = none ↔ op = .halt) := by
  unfold checkOperandCount at h
  split at h <;> cases h
  next => exact ⟨fun _ => rfl, fun _ => rfl⟩
  next hne => exact ⟨nofun, fun hhalt => absurd hhalt hne⟩

/-- A record's word is the word of `i`, and its mnemonic, mode and value are `i`'s (R146). -/
def AssembledInstruction.Records (r : AssembledInstruction) (i : Instr) : Prop :=
  r.word = encode i ∧ r.mnemonic = i.op.mnemonic ∧
    (i.op = .halt → r.mode = none ∧ r.value = none) ∧
    (i.op ≠ .halt → r.mode = some i.operand.mode ∧ r.value = some i.operand.value)

theorem assembleStatement_ok {tbl : LabelTable} {line addr : Nat} {mn : Text} {ops : List Text}
    {r : AssembledInstruction} (h : assembleStatement tbl line addr mn ops = .ok r) :
    r.address = addr ∧ ∃ i, i.canonical = true ∧ r.Records i := by
  unfold assembleStatement at h
  split at h
  next => cases h
  next op hop =>
    split at h
    next => cases h
    next hcount =>
      cases h
      obtain rfl := (checkOperandCount_ok hcount).mp rfl
      exact ⟨rfl, .haltDirect 0, rfl, rfl, rfl, fun _ => ⟨rfl, rfl⟩, fun hne => absurd rfl hne⟩
    next t hcount =>
      have hne : op ≠ .halt := mt (checkOperandCount_ok hcount).mpr (Option.some_ne_none t)
      split at h
      next => cases h
      next w m v hoperand =>
        cases h
        obtain ⟨hv, hlegal, rfl⟩ := assembleOperand_ok hoperand
        refine ⟨rfl, Instr.of op (Operand.ofValue m v), ?_, rfl, ?_, fun hhalt => ?_, fun _ => ?_⟩
        · simp [Instr.canonical, Instr.wellFormed, hlegal, hne]
        · simp
        · exact absurd (by simpa using hhalt) hne
        · simp [Operand.value_ofValue hv]

theorem assembleLine_some {tbl : LabelTable} {n : Nat} {l : SourceLine} {r : AssembledInstruction}
    (h : assembleLine tbl n l = .ok (some r)) :
    l.isStatement = true ∧ r.address = n ∧ ∃ i, i.canonical = true ∧ r.Records i := by
  unfold assembleLine at h
  split at h
  next => cases h
  next =>
    split at h
    next => cases h
    next mn ops htoks =>
      split at h
      next => cases h
      next hstatement =>
        cases h
        exact ⟨by simp [SourceLine.isStatement, htoks], assembleStatement_ok hstatement⟩

/-! ### The records of pass 2 (R140, R146) -/

/-- Pass 2 without an error: each line gave a record, or nothing where it is no statement. -/
theorem passTwoFrom_cons_ok {tbl : LabelTable} {n : Nat} {l : SourceLine} {ls : List SourceLine}
    {recs : List AssembledInstruction} (h : passTwoFrom tbl n (l :: ls) = ([], recs)) :
    (∃ r rest, assembleLine tbl n l = .ok (some r) ∧ passTwoFrom tbl (n + 1) ls = ([], rest) ∧ recs = r :: rest) ∨
      (l.isStatement = false ∧ passTwoFrom tbl n ls = ([], recs)) := by
  cases hl : assembleLine tbl n l with
  | error e => simp [passTwoFrom, hl] at h
  | ok o =>
    cases o with
    | none =>
      have hnot := assembleLine_none hl
      simp only [passTwoFrom, hl, advanceCounter, hnot, Bool.false_eq_true, if_false] at h
      exact .inr ⟨hnot, h⟩
    | some r =>
      obtain ⟨hstatement, -⟩ := assembleLine_some hl
      simp only [passTwoFrom, hl, advanceCounter, hstatement, if_true, Prod.mk.injEq] at h
      obtain ⟨herrs, hrecs⟩ := h
      exact .inl ⟨r, _, rfl, Prod.ext herrs rfl, hrecs.symm⟩

theorem passTwoFrom_record {tbl : LabelTable} {n : Nat} {ls : List SourceLine} {recs : List AssembledInstruction}
    (h : passTwoFrom tbl n ls = ([], recs)) : ∀ r ∈ recs, ∃ i, i.canonical = true ∧ r.Records i := by
  induction ls generalizing n recs with
  | nil =>
    cases h
    simp
  | cons l ls ih =>
    rcases passTwoFrom_cons_ok h with ⟨r, rest, hl, hrest, rfl⟩ | ⟨-, hrest⟩
    · obtain ⟨-, -, hr⟩ := assembleLine_some hl
      exact List.forall_mem_cons.mpr ⟨hr, ih hrest⟩
    · exact ih hrest

/-- The records' addresses count up from the counter, one per statement line. -/
theorem passTwoFrom_addresses {tbl : LabelTable} {n : Nat} {ls : List SourceLine} {recs : List AssembledInstruction}
    (h : passTwoFrom tbl n ls = ([], recs)) :
    recs.map AssembledInstruction.address = List.range' n recs.length ∧
      recs.length = (ls.filter SourceLine.isStatement).length := by
  induction ls generalizing n recs with
  | nil =>
    cases h
    exact ⟨rfl, rfl⟩
  | cons l ls ih =>
    rcases passTwoFrom_cons_ok h with ⟨r, rest, hl, hrest, rfl⟩ | ⟨hnot, hrest⟩
    · obtain ⟨hstatement, haddr, -⟩ := assembleLine_some hl
      obtain ⟨haddrs, hlength⟩ := ih hrest
      exact ⟨by rw [List.map_cons, haddr, haddrs, List.length_cons, List.range'_succ],
        by rw [List.filter_cons_of_pos hstatement, List.length_cons, List.length_cons, hlength]⟩
    · rw [List.filter_cons_of_neg (by simp [hnot])]
      exact ih hrest

/-- Settles O44: each record was made by one statement, and decoding undoes its encoding. -/
theorem assembledRecordsDecodeToThemselves : Obligations.AssembledRecordsDecodeToThemselves := by
  unfold Obligations.AssembledRecordsDecodeToThemselves
  intro source records h r hr
  obtain ⟨i, hcanonical, hword, hrecord⟩ := passTwoFrom_record (assemble_ok h) r hr
  exact ⟨i, hword ▸ decode_encode i, hcanonical, hrecord⟩

/-- Settles O45: pass 2 counts from 0. -/
theorem assembledAddressesCountFromZero : Obligations.AssembledAddressesCountFromZero := by
  unfold Obligations.AssembledAddressesCountFromZero
  intro source records h
  rw [List.range_eq_range']
  exact passTwoFrom_addresses (assemble_ok h)

/-! ### Loading what was assembled (R147) -/

theorem loadSource_of_ok {source : Text} {records : List AssembledInstruction} (h : assemble source = .ok records)
    (s : State) : loadSource source s = loadProgram (recordWords records) s := by
  simp only [loadSource, h]

theorem recordWords_length (records : List AssembledInstruction) : (recordWords records).length = records.length :=
  List.length_map _

/-- Records hold Words, so at address 0 their number alone decides whether they load. -/
theorem loadAccepted_recordWords_iff (records : List AssembledInstruction) :
    loadAccepted (recordWords records) 0 = true ↔ records.length ≤ 4096 := by
  have hwords : ∀ w ∈ recordWords records, 0 ≤ w ∧ w ≤ 65535 := by
    intro w hw
    obtain ⟨r, -, rfl⟩ := List.mem_map.mp hw
    have hlt := r.word.isLt
    simp only [Int.ofNat_eq_natCast]
    omega
  rw [loadAccepted_iff, recordWords_length, show (Config.memWords : Int) = 4096 from rfl]
  constructor
  · rintro ⟨-, hfit, -⟩
    omega
  · intro hfit
    exact ⟨le_rfl, by omega, hwords⟩

/-- Settles O48: each record stands at its own index, where the loader puts its word. -/
theorem assembledProgramsLoadAtZero : Obligations.AssembledProgramsLoadAtZero := by
  unfold Obligations.AssembledProgramsLoadAtZero
  intro source records s h
  rw [loadSource_of_ok h]
  refine ⟨fun hfit => ?loads, fun hlong => ?refused⟩
  case loads =>
    obtain ⟨t, ht⟩ := Option.isSome_iff_exists.mp
      ((loadProgram_isSome_iff (s := s)).mpr ((loadAccepted_recordWords_iff records).mpr hfit))
    refine ⟨t, ht, fun r hr => ?_, loadProgram_frame ht⟩
    obtain ⟨k, hk, rfl⟩ := List.mem_iff_getElem.mp hr
    obtain ⟨haddrs, -⟩ := passTwoFrom_addresses (assemble_ok h)
    have haddr : records[k].address = k := by
      have hget := congrArg (fun as => as[k]?) haddrs
      simpa [hk] using hget
    have hread := loadProgram_read_inside ht (i := k) (by rwa [recordWords_length])
    simpa [haddr, recordWords] using hread
  case refused =>
    rw [← Option.not_isSome_iff_eq_none, loadProgram_isSome_iff, loadAccepted_recordWords_iff]
    omega

/-! ### The label table of pass 1 (R129 to R131) -/

theorem LabelTable.find_eq_none_iff {tbl : LabelTable} {name : Text} :
    tbl.find name = none ↔ ∀ e ∈ tbl, e.name ≠ name := by
  simp [LabelTable.find, List.find?_eq_none]

/-- A line either leaves the table alone, or appends the first definition of its valid label. -/
theorem recordLabel_cases (tbl : LabelTable) (n : Nat) (l : SourceLine) :
    recordLabel tbl n l = tbl ∨
      ∃ name, l.label = some name ∧ validLabel name = true ∧ (∀ e ∈ tbl, e.name ≠ name) ∧
        recordLabel tbl n l = tbl ++ [{ name := name, address := n, line := l.number }] := by
  unfold recordLabel
  split
  next name hname =>
    split
    next h =>
      obtain ⟨hvalid, hnone⟩ := Bool.and_eq_true_iff.mp h
      exact .inr ⟨name, hname, hvalid, LabelTable.find_eq_none_iff.mp (Option.isNone_iff_eq_none.mp hnone), rfl⟩
    next => exact .inl rfl
  next => exact .inl rfl

theorem subset_recordLabel (tbl : LabelTable) (n : Nat) (l : SourceLine) : tbl ⊆ recordLabel tbl n l := by
  rcases recordLabel_cases tbl n l with h | ⟨name, -, -, -, h⟩ <;> rw [h]
  · exact List.Subset.refl _
  · exact List.subset_append_left _ _

/-- After a line with a valid label the table has an entry of that name, an older one or the line's own. -/
theorem exists_mem_recordLabel (tbl : LabelTable) (n : Nat) {l : SourceLine} {name : Text} (hname : l.label = some name)
    (hvalid : validLabel name = true) : ∃ e ∈ recordLabel tbl n l, e.name = name := by
  by_cases hold : ∃ e ∈ tbl, e.name = name
  · obtain ⟨e, he, hen⟩ := hold
    exact ⟨e, subset_recordLabel tbl n l he, hen⟩
  · have hnone : tbl.find name = none := LabelTable.find_eq_none_iff.mpr fun e he hen => hold ⟨e, he, hen⟩
    refine ⟨⟨name, n, l.number⟩, ?_, rfl⟩
    simp [recordLabel, hname, hvalid, hnone]

/-- No entry names a line later than the last one read. -/
theorem recordLabel_line_le {tbl : LabelTable} {n : Nat} {l : SourceLine} (h : ∀ e ∈ tbl, e.line ≤ l.number) :
    ∀ e ∈ recordLabel tbl n l, e.line ≤ l.number := by
  rcases recordLabel_cases tbl n l with heq | ⟨name, -, -, -, heq⟩ <;> rw [heq]
  · exact h
  · simpa using fun e he => he.elim (h e) fun hnew => by rw [hnew]

theorem recordLabel_nodup {tbl : LabelTable} (n : Nat) (l : SourceLine) (h : (tbl.map LabelEntry.name).Nodup) :
    ((recordLabel tbl n l).map LabelEntry.name).Nodup := by
  rcases recordLabel_cases tbl n l with heq | ⟨name, -, -, hfresh, heq⟩ <;> rw [heq]
  · exact h
  · rw [List.map_append, List.nodup_append]
    simpa [h] using hfresh

theorem passOneFrom_nodup {n : Nat} {tbl : LabelTable} (ls : List SourceLine) (h : (tbl.map LabelEntry.name).Nodup) :
    ((passOneFrom n tbl ls).map LabelEntry.name).Nodup := by
  induction ls generalizing n tbl with
  | nil => exact h
  | cons l ls ih => exact ih (recordLabel_nodup n l h)

theorem subset_passOneFrom (n : Nat) (tbl : LabelTable) (ls : List SourceLine) : tbl ⊆ passOneFrom n tbl ls := by
  induction ls generalizing n tbl with
  | nil => exact List.Subset.refl _
  | cons l ls ih => exact List.Subset.trans (subset_recordLabel tbl n l) (ih _ _)

/-- Every valid label of a line gets an entry, no later than that line. -/
theorem passOneFrom_complete {n : Nat} {tbl : LabelTable} {ls : List SourceLine}
    (hsorted : ls.Pairwise fun l l' => l.number < l'.number) (htbl : ∀ e ∈ tbl, ∀ l ∈ ls, e.line ≤ l.number)
    {l : SourceLine} (hl : l ∈ ls) {name : Text} (hname : l.label = some name) (hvalid : validLabel name = true) :
    ∃ e ∈ passOneFrom n tbl ls, e.name = name ∧ e.line ≤ l.number := by
  induction ls generalizing n tbl with
  | nil => cases hl
  | cons l' ls ih =>
    obtain ⟨hlater, hsorted⟩ := List.pairwise_cons.mp hsorted
    have hle := recordLabel_line_le (n := n) fun e he => htbl e he l' List.mem_cons_self
    rcases List.mem_cons.mp hl with rfl | hl
    · obtain ⟨e, he, hen⟩ := exists_mem_recordLabel tbl n hname hvalid
      exact ⟨e, subset_passOneFrom _ _ ls he, hen, hle e he⟩
    · exact ih hsorted (fun e he l'' hl'' => (hle e he).trans (hlater l'' hl'').le) hl

/-- How many of the lines before line `line` are statements (R129). -/
def statementsBefore (ls : List SourceLine) (line : Nat) : Nat :=
  (ls.filter fun l => l.isStatement && decide (l.number < line)).length

theorem statementsBefore_cons_of_le {l : SourceLine} {ls : List SourceLine} {line : Nat} (h : line ≤ l.number) :
    statementsBefore (l :: ls) line = statementsBefore ls line := by
  simp [statementsBefore, Nat.not_lt_of_le h]

theorem statementsBefore_eq_zero {ls : List SourceLine} {line : Nat} (h : ∀ l ∈ ls, line ≤ l.number) :
    statementsBefore ls line = 0 := by
  induction ls with
  | nil => rfl
  | cons l ls ih =>
    obtain ⟨hl, hls⟩ := List.forall_mem_cons.mp h
    rw [statementsBefore_cons_of_le hl, ih hls]

/-- The counter after a line is the counter before, and the line itself if it is a statement. -/
theorem advanceCounter_add_statementsBefore {n line : Nat} {l : SourceLine} {ls : List SourceLine}
    (h : l.number < line) : advanceCounter n l + statementsBefore ls line = n + statementsBefore (l :: ls) line := by
  unfold advanceCounter statementsBefore
  cases hl : l.isStatement <;> simp [hl, h]
  omega

/-- An entry of pass 1 was there before, or is a valid label of a line, at the number of statements up to that line. -/
theorem passOneFrom_sound {n : Nat} {tbl : LabelTable} {ls : List SourceLine}
    (hsorted : ls.Pairwise fun l l' => l.number < l'.number) {e : LabelEntry} (he : e ∈ passOneFrom n tbl ls) :
    e ∈ tbl ∨ validLabel e.name = true ∧ (∃ l ∈ ls, l.number = e.line ∧ l.label = some e.name) ∧
      e.address = n + statementsBefore ls e.line := by
  induction ls generalizing n tbl with
  | nil => exact .inl he
  | cons l ls ih =>
    obtain ⟨hlater, hsorted⟩ := List.pairwise_cons.mp hsorted
    rcases ih hsorted he with hrecorded | ⟨hvalid, ⟨l', hl', hline, hlabel⟩, haddr⟩
    · rcases recordLabel_cases tbl n l with heq | ⟨name, hname, hvalid, -, heq⟩ <;> rw [heq] at hrecorded
      · exact .inl hrecorded
      · rcases List.mem_append.mp hrecorded with hold | hnew
        · exact .inl hold
        · obtain rfl := List.mem_singleton.mp hnew
          have hnone : statementsBefore (l :: ls) l.number = 0 :=
            statementsBefore_eq_zero (List.forall_mem_cons.mpr ⟨le_rfl, fun l' hl' => (hlater l' hl').le⟩)
          exact .inr ⟨hvalid, ⟨l, List.mem_cons_self, rfl, hname⟩, by rw [hnone, Nat.add_zero]⟩
    · refine .inr ⟨hvalid, ⟨l', List.mem_cons_of_mem l hl', hline, hlabel⟩, haddr.trans ?_⟩
      exact advanceCounter_add_statementsBefore (hline ▸ hlater l' hl')

theorem scan_sorted (source : Text) : (scan source).Pairwise fun l l' => l.number < l'.number := by
  have hnumbers : ((scan source).map SourceLine.number).Pairwise (· < ·) := (scanFrom_sorted 1 (splitLines source)).1
  rwa [List.pairwise_map] at hnumbers

/-- Settles O47: pass 1 starts from the empty table, adds first definitions only, and misses no label. -/
theorem labelTableHoldsFirstDefinitions : Obligations.LabelTableHoldsFirstDefinitions := by
  unfold Obligations.LabelTableHoldsFirstDefinitions
  intro source
  refine ⟨passOneFrom_nodup _ List.nodup_nil, fun e he => ?sound, fun l hl name hname hvalid => ?complete⟩
  case sound =>
    rcases passOneFrom_sound (scan_sorted source) he with hnil | ⟨hvalid, hline, haddr⟩
    · cases hnil
    · exact ⟨hvalid, hline, haddr.trans (Nat.zero_add _)⟩
  case complete =>
    exact passOneFrom_complete (scan_sorted source) (fun _ he => by cases he) hl hname hvalid

end Sys2Proof.Machine
end

section
/-! SUPPORT. Disassembly read back (30_encoding.md R99 to R101; 31_assembler.md R149): the assembler's own tokens and operand
resolution recover opcode and operand from an instruction's text. That makes the text lossless, and reassembles it. -/

namespace Sys2Proof.Machine

/-! ### Decimal numbers (R99, R128) -/

theorem isDigit_of_mem_decimal {n : Nat} {c : Char} (h : c ∈ decimal n) : c.isDigit = true :=
  Nat.isDigit_of_mem_toDigits (by decide) le_rfl h

/-- A decimal number starts with a digit, so with no `+`, `-`, `#`, `(` or `R`. -/
theorem decimal_eq_cons (n : Nat) : ∃ c cs, decimal n = c :: cs ∧ c.isDigit = true := by
  have hne : decimal n ≠ [] := Nat.toDigits_ne_nil
  obtain ⟨c, cs, h⟩ := List.exists_cons_of_ne_nil hne
  exact ⟨c, cs, h, isDigit_of_mem_decimal (h ▸ List.mem_cons_self)⟩

theorem natLiteral_decimal (n : Nat) : natLiteral (decimal n) = some n := by
  have hvalue : digitsValue (decimal n) = n :=
    Nat.ofDigitChars_eq_foldl.symm.trans (Nat.ofDigitChars_toDigits (by decide) le_rfl)
  rw [natLiteral, if_pos ⟨Nat.toDigits_ne_nil, List.all_eq_true.mpr fun _ => isDigit_of_mem_decimal⟩, hvalue]

theorem intLiteral_decimal (n : Nat) : intLiteral (decimal n) = some (n : Int) := by
  have hnat := natLiteral_decimal n
  obtain ⟨c, cs, h, hc⟩ := decimal_eq_cons n
  rw [h] at hnat ⊢
  unfold intLiteral
  split
  next heq => cases heq; cases hc
  next heq => cases heq; cases hc
  next => rw [hnat]; rfl

theorem registerNumber_decimal (n : Nat) : registerNumber (decimal n) = none := by
  obtain ⟨c, cs, h, hc⟩ := decimal_eq_cons n
  rw [h]
  unfold registerNumber
  split
  next heq => cases heq; cases hc
  next heq => cases heq; cases hc
  next => rfl

theorem afterHash_decimal (n : Nat) : afterHash (decimal n) = none := by
  obtain ⟨c, cs, h, hc⟩ := decimal_eq_cons n
  rw [h]
  unfold afterHash
  split
  next heq => cases heq; cases hc
  next => rfl

theorem insideParens_decimal (n : Nat) : insideParens (decimal n) = none := by
  obtain ⟨c, cs, h, hc⟩ := decimal_eq_cons n
  rw [h]
  unfold insideParens
  split
  next heq => cases heq; cases hc
  next => rfl

/-! ### An operand's text resolves to the operand (R99, R133) -/

theorem insideParens_wrap (t : Text) : insideParens ('(' :: t ++ [')']) = some t := by
  simp [insideParens]

theorem addressOperand_decimal (tbl : LabelTable) (m : Mode) (n : Nat) :
    addressOperand tbl m (decimal n) = .ok (m, (n : Int)) := by
  simp only [addressOperand, intLiteral_decimal]

theorem registerOperand_toNat (m : Mode) (k : BitVec 4) : registerOperand m k.toNat = .ok (m, (k.toNat : Int)) :=
  if_pos (Nat.le_of_lt_succ k.isLt)

/-- Each mode's text has the form of that mode and of no earlier one, whatever the labels. -/
theorem resolve_operandText (tbl : LabelTable) (o : Operand) :
    resolve tbl (operandText o) = .ok (o.mode, (o.value : Int)) := by
  cases o with
  | direct a =>
    simp only [resolve, operandText, afterHash_decimal, insideParens_decimal, registerNumber_decimal,
      addressOperand_decimal, Operand.mode, Operand.value]
  | indirect a =>
    have hhash : afterHash ('(' :: decimal a.toNat ++ [')']) = none := rfl
    simp only [resolve, operandText, hhash, insideParens_wrap, registerNumber_decimal, addressOperand_decimal,
      Operand.mode, Operand.value]
  | immediate n =>
    have hhash : afterHash ('#' :: decimal n.toNat) = some (decimal n.toNat) := rfl
    simp only [resolve, operandText, hhash, intLiteral_decimal, Operand.mode, Operand.value]
  | register k =>
    have hhash : afterHash ('R' :: decimal k.toNat) = none := rfl
    have hparens : insideParens ('R' :: decimal k.toNat) = none := rfl
    have hnumber : registerNumber ('R' :: decimal k.toNat) = some k.toNat := natLiteral_decimal k.toNat
    simp only [resolve, operandText, hhash, hparens, hnumber, registerOperand_toNat, Operand.mode, Operand.value]
  | registerIndirect k =>
    have hhash : afterHash ('(' :: 'R' :: decimal k.toNat ++ [')']) = none := rfl
    have hparens : insideParens ('(' :: 'R' :: decimal k.toNat ++ [')']) = some ('R' :: decimal k.toNat) :=
      insideParens_wrap ('R' :: decimal k.toNat)
    have hnumber : registerNumber ('R' :: decimal k.toNat) = some k.toNat := natLiteral_decimal k.toNat
    simp only [resolve, operandText, hhash, hparens, hnumber, registerOperand_toNat, Operand.mode, Operand.value]

theorem operandText_injective : Function.Injective operandText := by
  intro o o' h
  have hpair := (resolve_operandText [] o).symm.trans (h ▸ resolve_operandText [] o')
  simp only [Except.ok.injEq, Prod.mk.injEq, Nat.cast_inj] at hpair
  obtain ⟨hmode, hvalue⟩ := hpair
  rw [← Operand.ofValue_mode_value o, hmode, hvalue, Operand.ofValue_mode_value]

/-! ### Words of plain characters -/

/-- A character that neither ends a token nor starts a comment, a label or a new line (R121 to R125). -/
def plainChar (c : Char) : Bool :=
  !isSpace c && c != '\n' && c != ';' && c != ':'

theorem plainChar_iff {c : Char} : plainChar c = true ↔ isSpace c = false ∧ c ≠ '\n' ∧ c ≠ ';' ∧ c ≠ ':' := by
  simp [plainChar, and_assoc]

/-- A word: one or more plain characters. -/
def PlainWord (t : Text) : Prop :=
  t ≠ [] ∧ ∀ c ∈ t, plainChar c = true

theorem plainChar_of_isDigit {c : Char} (h : c.isDigit = true) : plainChar c = true := by
  by_contra hplain
  simp only [plainChar, isSpace, Bool.and_eq_true, Bool.not_eq_true', Bool.or_eq_false_iff, bne_iff_ne, beq_eq_false_iff_ne,
    not_and_or, not_not] at hplain
  rcases hplain with ((((((rfl | rfl) | rfl) | rfl) | rfl) | rfl) | rfl) | rfl <;> cases h

theorem plainWord_mnemonic (op : Opcode) : PlainWord op.mnemonic := by
  have hne : op.mnemonic ≠ [] := by cases op <;> exact List.cons_ne_nil _ _
  have hplain : op.mnemonic.all plainChar = true := by cases op <;> rfl
  exact ⟨hne, List.all_eq_true.mp hplain⟩

theorem plainWord_operandText (o : Operand) : PlainWord (operandText o) := by
  have hdecimal : ∀ n, ∀ c ∈ decimal n, plainChar c = true := fun n c hc => plainChar_of_isDigit (isDigit_of_mem_decimal hc)
  cases o with
  | direct a => exact ⟨Nat.toDigits_ne_nil, hdecimal _⟩
  | immediate n => exact ⟨List.cons_ne_nil _ _, List.forall_mem_cons.mpr ⟨rfl, hdecimal _⟩⟩
  | register k => exact ⟨List.cons_ne_nil _ _, List.forall_mem_cons.mpr ⟨rfl, hdecimal _⟩⟩
  | indirect a =>
    refine ⟨List.cons_ne_nil _ _, List.forall_mem_cons.mpr ⟨rfl, List.forall_mem_append.mpr ⟨hdecimal _, ?_⟩⟩⟩
    exact List.forall_mem_singleton.mpr rfl
  | registerIndirect k =>
    refine ⟨List.cons_ne_nil _ _, List.forall_mem_cons.mpr ⟨rfl, List.forall_mem_cons.mpr ⟨rfl,
      List.forall_mem_append.mpr ⟨hdecimal _, ?_⟩⟩⟩⟩
    exact List.forall_mem_singleton.mpr rfl

/-! ### Tokens of one and of two words (R126) -/

theorem tokensFrom_append {w : Text} (hw : ∀ c ∈ w, isSpace c = false) (rest current : Text) :
    tokensFrom (w ++ rest) current = tokensFrom rest (w.reverse ++ current) := by
  induction w generalizing current with
  | nil => rfl
  | cons c w ih =>
    obtain ⟨hc, hw⟩ := List.forall_mem_cons.mp hw
    simp only [List.cons_append, tokensFrom, hc, Bool.false_eq_true, if_false, ih hw, List.reverse_cons, List.append_assoc,
      List.nil_append]

section Tokens

variable {w w' : Text}

theorem PlainWord.not_isSpace (hw : PlainWord w) : ∀ c ∈ w, isSpace c = false := fun c hc =>
  (plainChar_iff.mp (hw.2 c hc)).1

theorem PlainWord.isEmpty_reverse (hw : PlainWord w) : w.reverse.isEmpty = false := by
  simpa using hw.1

theorem tokens_word (hw : PlainWord w) : tokens w = [w] := by
  have h := tokensFrom_append hw.not_isSpace [] []
  rw [List.append_nil, List.append_nil] at h
  simp only [tokens, h, tokensFrom, hw.isEmpty_reverse, Bool.false_eq_true, if_false, List.reverse_reverse]

theorem tokens_two_words (hw : PlainWord w) (hw' : PlainWord w') : tokens (w ++ ' ' :: w') = [w, w'] := by
  have hspace : isSpace ' ' = true := rfl
  have htail : tokensFrom w' [] = [w'] := tokens_word hw'
  rw [tokens, tokensFrom_append hw.not_isSpace, List.append_nil]
  simp only [tokensFrom, hspace, hw.isEmpty_reverse, Bool.false_eq_true, if_true, if_false, List.reverse_reverse, htail]

end Tokens

/-! ### Disassembly is lossless (30_encoding.md R101) -/

/-- The tokens of an instruction's text: its mnemonic, and its operand text but for the HALT of operand field 0. -/
theorem tokens_instrText (i : Instr) :
    tokens (instrText i) =
      if i = .haltDirect 0 then [i.op.mnemonic] else [i.op.mnemonic, operandText i.operand] := by
  unfold instrText
  split
  · exact tokens_word (plainWord_mnemonic _)
  · exact tokens_two_words (plainWord_mnemonic _) (plainWord_operandText _)

theorem instrText_injective : Function.Injective instrText := by
  intro i j h
  have htokens := (tokens_instrText i).symm.trans ((congrArg tokens h).trans (tokens_instrText j))
  split at htokens <;> split at htokens
  next hi hj => rw [hi, hj]
  next => simp at htokens
  next => simp at htokens
  next =>
    simp only [List.cons.injEq, and_true] at htokens
    obtain ⟨hmnemonic, htext⟩ := htokens
    rw [← Instr.of_op_operand i, Opcode.mnemonic_injective hmnemonic, operandText_injective htext,
      Instr.of_op_operand]

/-- No opcode is called UNKNOWN. -/
theorem instrText_ne_unknownText (i : Instr) : instrText i ≠ unknownText := by
  intro h
  have htokens := (tokens_instrText i).symm.trans (congrArg tokens h)
  have hhead := congrArg List.head? htokens
  have hmnemonic : i.op.mnemonic = unknownText := by
    split at hhead <;> exact Option.some.inj hhead
  cases hop : i.op <;> rw [hop] at hmnemonic <;> cases hmnemonic

theorem disassemble_of_valid {w : Word} {i : Instr} (h : decode w = .valid i) : disassemble w = instrText i := by
  simp only [disassemble, h]

theorem disassemble_of_invalid {w : Word} {why : InvalidReason} (h : decode w = .invalid why) :
    disassemble w = unknownText := by
  simp only [disassemble, h]

theorem disassemble_eq_unknownText_iff {w : Word} : disassemble w = unknownText ↔ ∃ why, decode w = .invalid why := by
  cases hd : decode w with
  | valid i => simp [disassemble_of_valid hd, instrText_ne_unknownText i]
  | invalid why => simp [disassemble_of_invalid hd]

/-- Settles O42: the text determines the instruction, which determines the word. -/
theorem disassemblyIsLosslessOnValidWords : Obligations.DisassemblyIsLosslessOnValidWords := by
  unfold Obligations.DisassemblyIsLosslessOnValidWords
  refine ⟨fun w => disassemble_eq_unknownText_iff, fun w w' i hd h => ?_⟩
  rw [disassemble_of_valid hd] at h
  cases hd' : decode w' with
  | invalid why =>
    rw [disassemble_of_invalid hd'] at h
    exact absurd h (instrText_ne_unknownText i)
  | valid j =>
    rw [disassemble_of_valid hd'] at h
    obtain rfl := instrText_injective h
    exact BitVec.eq_of_toNat_eq ((decode_eq_valid_iff.mp hd).trans (decode_eq_valid_iff.mp hd').symm)

/-! ### Scanning one line of two words (R121 to R126) -/

theorem splitLines_of_no_lf {t : Text} (h : ∀ c ∈ t, c ≠ '\n') : splitLines t = [t] := by
  induction t with
  | nil => rfl
  | cons c t ih =>
    obtain ⟨hc, ht⟩ := List.forall_mem_cons.mp h
    simp only [splitLines, hc, if_false, ih ht]

theorem stripComment_of_no_semicolon {t : Text} (h : ∀ c ∈ t, c ≠ ';') : stripComment t = t :=
  List.takeWhile_eq_self_iff.mpr fun c hc => bne_iff_ne.mpr (h c hc)

/-- A text with words at both ends has no whitespace to trim. -/
theorem trim_eq_self {w w' mid : Text} (hw : PlainWord w) (hw' : PlainWord w') :
    trim (w ++ mid ++ w') = w ++ mid ++ w' := by
  have hdrop : ∀ {u : Text} (_ : PlainWord u) (rest : Text), (u ++ rest).dropWhile isSpace = u ++ rest := by
    intro u hu rest
    obtain ⟨c, u, rfl⟩ := List.exists_cons_of_ne_nil hu.1
    simp [hu.not_isSpace c List.mem_cons_self]
  have hrev : PlainWord w'.reverse := ⟨by simpa using hw'.1, by simpa using hw'.2⟩
  rw [trim, List.append_assoc, hdrop hw, ← List.append_assoc, List.reverse_append, hdrop hrev, ← List.reverse_append,
    List.reverse_reverse]

theorem scan_two_words {w w' : Text} (hw : PlainWord w) (hw' : PlainWord w') :
    scan (w ++ ' ' :: w') = [{ number := 1, label := none, toks := [w, w'] }] := by
  have hchars : ∀ c ∈ w ++ ' ' :: w', c ≠ '\n' ∧ c ≠ ';' ∧ c ≠ ':' := by
    have hplain : ∀ c, plainChar c = true → c ≠ '\n' ∧ c ≠ ';' ∧ c ≠ ':' := fun c hc => (plainChar_iff.mp hc).2
    exact List.forall_mem_append.mpr ⟨fun c hc => hplain c (hw.2 c hc),
      List.forall_mem_cons.mpr ⟨by decide, fun c hc => hplain c (hw'.2 c hc)⟩⟩
  have hlines := splitLines_of_no_lf fun c hc => (hchars c hc).1
  have hstrip := stripComment_of_no_semicolon fun c hc => (hchars c hc).2.1
  have htrim : trim (w ++ ' ' :: w') = w ++ ' ' :: w' := by
    simpa using trim_eq_self (mid := [' ']) hw hw'
  have hcolon : (w ++ ' ' :: w').contains ':' = false := by
    rw [Bool.eq_false_iff, ne_eq, List.contains_iff_mem]
    exact fun hmem => (hchars ':' hmem).2.2 rfl
  simp only [scan, hlines, scanFrom, scanLine, hstrip, htrim, hcolon, Bool.false_eq_true, if_false,
    tokens_two_words hw hw']

/-! ### Reassembly (31_assembler.md R149) -/

theorem checkOperandCount_one {op : Opcode} (h : op ≠ .halt) (line : Nat) (mn t : Text) :
    checkOperandCount line op mn [t] = .ok (some t) := by
  cases op with
  | halt => exact absurd rfl h
  | load | store | add | sub | cmp | jmp | jz | jnz => rfl

/-- The operand text of an instruction of legal mode assembles to the instruction's word. -/
theorem assembleOperand_operandText (tbl : LabelTable) (line : Nat) {i : Instr} (h : i.wellFormed = true) :
    assembleOperand tbl line i.op (operandText i.operand) = .ok (encode i, i.operand.mode, i.operand.value) := by
  have hlo : (0 : Int) ≤ i.operand.value := Int.natCast_nonneg _
  have hhi : (i.operand.value : Int) < i.operand.mode.rangeSize := Int.ofNat_lt.mpr i.operand.value_lt
  have hlegal : legalMode i.op i.operand.mode = true := h
  have hin : inRange i.operand.mode i.operand.value = true := by simp only [inRange, hlo, hhi, decide_true, Bool.and_self]
  have hword := encodeTriple_of_inRange i.op hlo hhi
  rw [Int.toNat_natCast, Operand.ofValue_mode_value, Instr.of_op_operand] at hword
  simp only [assembleOperand, resolve_operandText, hin, hlegal, hword, Bool.not_true, Bool.false_eq_true, if_false,
    Int.toNat_natCast]

/-- A source of one line of two words, the second an operand's text. -/
theorem assemble_instrText {i : Instr} (h : i.wellFormed = true) (hop : i.op ≠ .halt) :
    ∃ r, assemble (instrText i) = .ok [r] ∧ r.word = encode i ∧ r.address = 0 := by
  have hne : i ≠ .haltDirect 0 := fun heq => hop (heq ▸ rfl)
  have hscan := scan_two_words (plainWord_mnemonic i.op) (plainWord_operandText i.operand)
  rw [instrText, if_neg hne]
  simp only [assemble, hscan, passTwo, passOne, passOneFrom, recordLabel, passTwoFrom, assembleLine, checkLabel,
    assembleStatement, Opcode.ofMnemonic_mnemonic, checkOperandCount_one hop, assembleOperand_operandText _ _ h]
  exact ⟨_, rfl, rfl, rfl⟩

/-- Settles O43: the one canonical HALT is a computation, every other canonical instruction is of a legal mode. -/
theorem disassemblyReassemblesCanonicalWords : Obligations.DisassemblyReassemblesCanonicalWords := by
  unfold Obligations.DisassemblyReassemblesCanonicalWords
  intro i h
  rw [disassemble_of_valid (decode_encode i)]
  simp only [Instr.canonical, Bool.and_eq_true, Bool.or_eq_true, bne_iff_ne, beq_iff_eq] at h
  obtain ⟨hlegal, hop⟩ := h
  by_cases hhalt : i.op = .halt
  · obtain rfl : i = .haltDirect 0 := by
      rw [← Instr.of_op_operand i, hhalt, hop.resolve_left (not_not.mpr hhalt)]
      rfl
    exact ⟨_, rfl, rfl, rfl⟩
  · exact assemble_instrText hlegal hhalt

end Sys2Proof.Machine
end
